-- ==== Sys2Proof/Word.lean ====
section
/-! DEFINITION. The bit-vector widths of the CORE: register and cell words, instruction words, selectors. -/

namespace Sys2Proof

/-- A `u32` (spec R8): a register, the PC, a memory cell, an immediate. -/
abbrev Word := BitVec 32

/-- One 64-bit instruction word `W` (spec R56). -/
abbrev IWord := BitVec 64

/-- A 4-bit register selector (spec R15, R59). -/
abbrev Sel := BitVec 4

/-- A byte: only the serialisation convention of R42 speaks of bytes. -/
abbrev Byte := BitVec 8

end Sys2Proof
end

