-- ==== Sys2Proof/Config.lean ====
section
/-! DEFINITION. What is fixed for the machine: the parameters of R6 and R7, and the free values that stand on pins
whose value the port tables of 48_block_interfaces.md leave open (log 8). -/

namespace Sys2Proof

/-- `MEM_CELLS` (R6): the number of data memory cells. -/
abbrev Config.memCells : Nat := 65536

/-- `IO_OUT` (R6): the data address of the output port, 0xFFFF. -/
abbrev Config.ioOut : Nat := 65535

/-- `R7_RESET` (R6): memory size - 2. -/
abbrev Config.r7Reset : Word := 65534

/-- `PC_RESET` (R6). -/
abbrev Config.pcReset : Word := 0

/-- The bound on `PROG_LEN` (R7): 2^32. -/
abbrev Config.maxProgLen : Nat := 4294967296

/-- A free value, no body: what a 4-bit decoder port holds where R126 calls it unused or gives it no value.
The first argument numbers the port, the second is the instruction word. -/
opaque Config.unusedPort : Nat → IWord → Sel

/-- A free value, no body: what a 1-bit decoder port holds for a word that is no instruction, to which R126 gives it no
value. The arguments are as above. -/
opaque Config.unusedBit : Nat → IWord → Bool

/-- A free value, no body: what a 32-bit data port holds in a cycle for which its table gives it no value (`base`,
R130; `store_data`, R130; `wr_data`, R127). The first argument numbers the port, then come the instruction word and the
two register read ports. -/
opaque Config.unusedData : Nat → IWord → Word → Word → Word

/-- A free value, no body: the ALU's result for an `alu_op` that R128 gives no function. -/
opaque Config.unusedAluResult : Sel → Word → Word → Word → Word

/-- A free value, no body: what a register read port shows for a selector outside its range 0 .. 8 (R127). -/
opaque Config.unusedRead : Sel → Word

/-- A free value, no body: `imem_rdata` at an index outside the Program, ignored by the core (R124). -/
opaque Config.imemOutside : Word → IWord

end Sys2Proof
end

