-- ==== Sys2Proof/Syntax.lean ====
section
/-! DEFINITION. The instruction set as data (30_encoding.md): register identifiers, opcodes, formats, and one
constructor of `Instr` per row of the opcode table, with the operands in the source's order. -/

namespace Sys2Proof

/-- The register identifiers (R15): R0 to R7 and PC. An identifier outside this set cannot be written down, which
is the record level's InvalidRegister (R139). -/
inductive Reg where
  | r0 | r1 | r2 | r3 | r4 | r5 | r6 | r7 | pc
  deriving DecidableEq, Repr

/-- The selector number of an identifier (R15, R59): 0 to 7 name R0 to R7, 8 names PC. -/
def Reg.num : Reg → Nat
  | .r0 => 0 | .r1 => 1 | .r2 => 2 | .r3 => 3 | .r4 => 4
  | .r5 => 5 | .r6 => 6 | .r7 => 7 | .pc => 8

/-- The opcode tags (R55). -/
inductive Opcode where
  | add | sub | inc | dec | and | or | xor | shl | shr | cmp
  | const | load | store | jmp | bz | halt
  deriving DecidableEq, Repr

/-- The five formats (R57). -/
inductive Format where
  | rrr | r | ri | rri | n
  deriving DecidableEq, Repr

/-- Which opcode has which format (R57). -/
def Opcode.format : Opcode → Format
  | .add | .sub | .and | .or | .xor | .shl | .shr | .cmp => .rrr
  | .inc | .dec => .r
  | .const | .jmp | .bz => .ri
  | .load | .store => .rri
  | .halt => .n

/-- An instruction record (R54, R55): an opcode and its operands, in the order of the source's table. An immediate
is a natural number and an offset an integer, as at the record level (R62). -/
inductive Instr where
  /-- `ADD Ra, Rb, Rd` (R94) -/
  | add (ra rb rd : Reg)
  /-- `SUB Ra, Rb, Rd` (R95) -/
  | sub (ra rb rd : Reg)
  /-- `INC Ra` (R96) -/
  | inc (ra : Reg)
  /-- `DEC Ra` (R97) -/
  | dec (ra : Reg)
  /-- `AND Ra, Rb, Rd` (R100) -/
  | and (ra rb rd : Reg)
  /-- `OR Ra, Rb, Rd` (R101) -/
  | or (ra rb rd : Reg)
  /-- `XOR Ra, Rb, Rd` (R102) -/
  | xor (ra rb rd : Reg)
  /-- `SHL Ra, Rb, Rd` (R104) -/
  | shl (ra rb rd : Reg)
  /-- `SHR Ra, Rb, Rd` (R105) -/
  | shr (ra rb rd : Reg)
  /-- `CMP Ra, Rb, Rd` (R106) -/
  | cmp (ra rb rd : Reg)
  /-- `CONST value, Rd` (R108) -/
  | const (value : Nat) (rd : Reg)
  /-- `LOAD Rs, Rd, offset` (R109): Rs is the address base, Rd the destination -/
  | load (rs rd : Reg) (offset : Int)
  /-- `STORE Rs, Rd, offset` (R110): Rs is the data, Rd the address base -/
  | store (rs rd : Reg) (offset : Int)
  /-- `JMP Rd, offset` (R114) -/
  | jmp (rd : Reg) (offset : Int)
  /-- `BZ Rt, offset` (R115) -/
  | bz (rt : Reg) (offset : Int)
  /-- `HALT` (R116) -/
  | halt
  deriving DecidableEq, Repr

/-- The opcode tag of an instruction. -/
def Instr.opcode : Instr → Opcode
  | .add _ _ _ => .add
  | .sub _ _ _ => .sub
  | .inc _ => .inc
  | .dec _ => .dec
  | .and _ _ _ => .and
  | .or _ _ _ => .or
  | .xor _ _ _ => .xor
  | .shl _ _ _ => .shl
  | .shr _ _ _ => .shr
  | .cmp _ _ _ => .cmp
  | .const _ _ => .const
  | .load _ _ _ => .load
  | .store _ _ _ => .store
  | .jmp _ _ => .jmp
  | .bz _ _ => .bz
  | .halt => .halt

end Sys2Proof
end

