-- ==== Sys2Proof/WellFormed.lean ====
section
/-! DEFINITION. Which instruction records have an encoding (R62): a CONST value below 2^32, and an offset in
-2^31 .. 2^31 - 1. Register operands need no check: `Reg` holds exactly the nine identifiers. -/

namespace Sys2Proof

/-- A CONST value that fits the 32-bit field (R60, R62). -/
def valueEncodable (value : Nat) : Bool :=
  decide (value < 2 ^ 32)

/-- An offset that fits 32-bit two's complement (R61, R62). -/
def offsetEncodable (offset : Int) : Bool :=
  decide (-(2 ^ 31) ≤ offset) && decide (offset < 2 ^ 31)

/-- An instruction with an encoding. -/
def Instr.wf : Instr → Bool
  | .add _ _ _ | .sub _ _ _ | .and _ _ _ | .or _ _ _ | .xor _ _ _ => true
  | .shl _ _ _ | .shr _ _ _ | .cmp _ _ _ => true
  | .inc _ | .dec _ => true
  | .const value _ => valueEncodable value
  | .load _ _ offset | .store _ _ offset => offsetEncodable offset
  | .jmp _ offset | .bz _ offset => offsetEncodable offset
  | .halt => true

end Sys2Proof
end

