-- ==== Sys2Proof/Decode.lean ====
section
/-! DEFINITION. The binary level (30_encoding.md): the fields of a word, the decoder of R64, the encoder, the opcode
table's rows as data, and the byte serialisation convention of R42. -/

namespace Sys2Proof

/-- The six fields of an instruction word (R56). -/
structure Fields where
  op  : BitVec 8
  r1  : Sel
  r2  : Sel
  r3  : Sel
  rsv : BitVec 12
  imm : Word
  deriving DecidableEq, Repr

/-- What decoding a word gives (R64). -/
inductive Decoded where
  /-- one of the 16 instructions -/
  | instr (i : Instr)
  /-- the word is no instruction (R65) -/
  | invalidOpcode
  /-- an operand-carrying field holds a selector of 9 to 15, the first such one (R66) -/
  | invalidRegister (sel : Sel)
  deriving DecidableEq, Repr

/-- The bit positions of R56. -/
def fieldsOf (w : IWord) : Fields :=
  { op := w.extractLsb' 56 8
    r1 := w.extractLsb' 52 4
    r2 := w.extractLsb' 48 4
    r3 := w.extractLsb' 44 4
    rsv := w.extractLsb' 32 12
    imm := w.extractLsb' 0 32 }

/-- The opcode map (R58): 0x01 to 0x10 in the order of the source's table; every other number names none. -/
def opcodeOfByte (op : BitVec 8) : Option Opcode :=
  match op.toNat with
  | 0x01 => some .add
  | 0x02 => some .sub
  | 0x03 => some .inc
  | 0x04 => some .dec
  | 0x05 => some .and
  | 0x06 => some .or
  | 0x07 => some .xor
  | 0x08 => some .shl
  | 0x09 => some .shr
  | 0x0A => some .cmp
  | 0x0B => some .const
  | 0x0C => some .load
  | 0x0D => some .store
  | 0x0E => some .jmp
  | 0x0F => some .bz
  | 0x10 => some .halt
  | _ => none

/-- The opcode number of an opcode (R58), for the encoder. -/
def byteOfOpcode : Opcode → BitVec 8
  | .add => 0x01
  | .sub => 0x02
  | .inc => 0x03
  | .dec => 0x04
  | .and => 0x05
  | .or => 0x06
  | .xor => 0x07
  | .shl => 0x08
  | .shr => 0x09
  | .cmp => 0x0A
  | .const => 0x0B
  | .load => 0x0C
  | .store => 0x0D
  | .jmp => 0x0E
  | .bz => 0x0F
  | .halt => 0x10

/-- The register a selector names (R59); 9 to 15 name none. -/
def regOfSel (sel : Sel) : Option Reg :=
  match sel.toNat with
  | 0 => some .r0
  | 1 => some .r1
  | 2 => some .r2
  | 3 => some .r3
  | 4 => some .r4
  | 5 => some .r5
  | 6 => some .r6
  | 7 => some .r7
  | 8 => some .pc
  | _ => none

/-- The selector of a register (R59), for the encoder. -/
def selOfReg (r : Reg) : Sel :=
  BitVec.ofNat 4 r.num

/-- The must-be-zero fields of a format are zero (R57, R63). -/
def unusedZero (fmt : Format) (f : Fields) : Bool :=
  f.rsv == 0 &&
    match fmt with
    | .rrr => f.imm == 0
    | .r => f.r2 == 0 && f.r3 == 0 && f.imm == 0
    | .ri => f.r2 == 0 && f.r3 == 0
    | .rri => f.r3 == 0
    | .n => f.r1 == 0 && f.r2 == 0 && f.r3 == 0 && f.imm == 0

/-- One operand-carrying selector of step 3 of R64: the register it names, or the fault InvalidRegister. -/
def withReg (sel : Sel) (k : Reg → Decoded) : Decoded :=
  match regOfSel sel with
  | some r => k r
  | none => .invalidRegister sel

/-- Steps 3 and 4 of R64, by opcode: the operands of R57 are taken from `r1`, `r2`, `r3` in that order. The CONST
value is `imm` unsigned (R60), an offset is `imm` in two's complement (R61). -/
def buildInstr (o : Opcode) (f : Fields) : Decoded :=
  match o with
  | .add => withReg f.r1 fun ra => withReg f.r2 fun rb => withReg f.r3 fun rd => .instr (.add ra rb rd)
  | .sub => withReg f.r1 fun ra => withReg f.r2 fun rb => withReg f.r3 fun rd => .instr (.sub ra rb rd)
  | .inc => withReg f.r1 fun ra => .instr (.inc ra)
  | .dec => withReg f.r1 fun ra => .instr (.dec ra)
  | .and => withReg f.r1 fun ra => withReg f.r2 fun rb => withReg f.r3 fun rd => .instr (.and ra rb rd)
  | .or => withReg f.r1 fun ra => withReg f.r2 fun rb => withReg f.r3 fun rd => .instr (.or ra rb rd)
  | .xor => withReg f.r1 fun ra => withReg f.r2 fun rb => withReg f.r3 fun rd => .instr (.xor ra rb rd)
  | .shl => withReg f.r1 fun ra => withReg f.r2 fun rb => withReg f.r3 fun rd => .instr (.shl ra rb rd)
  | .shr => withReg f.r1 fun ra => withReg f.r2 fun rb => withReg f.r3 fun rd => .instr (.shr ra rb rd)
  | .cmp => withReg f.r1 fun ra => withReg f.r2 fun rb => withReg f.r3 fun rd => .instr (.cmp ra rb rd)
  | .const => withReg f.r1 fun rd => .instr (.const f.imm.toNat rd)
  | .load => withReg f.r1 fun rs => withReg f.r2 fun rd => .instr (.load rs rd f.imm.toInt)
  | .store => withReg f.r1 fun rs => withReg f.r2 fun rd => .instr (.store rs rd f.imm.toInt)
  | .jmp => withReg f.r1 fun rd => .instr (.jmp rd f.imm.toInt)
  | .bz => withReg f.r1 fun rt => .instr (.bz rt f.imm.toInt)
  | .halt => .instr .halt

/-- Decode is a total function of the word alone (R64): opcode, then the must-be-zero fields, then the selectors,
then the instruction. -/
def decode (w : IWord) : Decoded :=
  match opcodeOfByte (fieldsOf w).op with
  | none => .invalidOpcode
  | some o =>
    if unusedZero o.format (fieldsOf w) then buildInstr o (fieldsOf w) else .invalidOpcode

/-- The word with given fields and `rsv` zero (R56). -/
def assemble (o : Opcode) (r1 r2 r3 : Sel) (imm : Word) : IWord :=
  byteOfOpcode o ++ r1 ++ r2 ++ r3 ++ 0#12 ++ imm

/-- The word of an instruction (R56 to R61). Register operands fill `r1`, `r2`, `r3` in the source's order. The one
encoding of a well-formed instruction (R63). -/
def encode : Instr → IWord
  | .add ra rb rd => assemble .add (selOfReg ra) (selOfReg rb) (selOfReg rd) 0
  | .sub ra rb rd => assemble .sub (selOfReg ra) (selOfReg rb) (selOfReg rd) 0
  | .inc ra => assemble .inc (selOfReg ra) 0 0 0
  | .dec ra => assemble .dec (selOfReg ra) 0 0 0
  | .and ra rb rd => assemble .and (selOfReg ra) (selOfReg rb) (selOfReg rd) 0
  | .or ra rb rd => assemble .or (selOfReg ra) (selOfReg rb) (selOfReg rd) 0
  | .xor ra rb rd => assemble .xor (selOfReg ra) (selOfReg rb) (selOfReg rd) 0
  | .shl ra rb rd => assemble .shl (selOfReg ra) (selOfReg rb) (selOfReg rd) 0
  | .shr ra rb rd => assemble .shr (selOfReg ra) (selOfReg rb) (selOfReg rd) 0
  | .cmp ra rb rd => assemble .cmp (selOfReg ra) (selOfReg rb) (selOfReg rd) 0
  | .const value rd => assemble .const (selOfReg rd) 0 0 (BitVec.ofNat 32 value)
  | .load rs rd offset => assemble .load (selOfReg rs) (selOfReg rd) 0 (BitVec.ofInt 32 offset)
  | .store rs rd offset => assemble .store (selOfReg rs) (selOfReg rd) 0 (BitVec.ofInt 32 offset)
  | .jmp rd offset => assemble .jmp (selOfReg rd) 0 0 (BitVec.ofInt 32 offset)
  | .bz rt offset => assemble .bz (selOfReg rt) 0 0 (BitVec.ofInt 32 offset)
  | .halt => assemble .halt 0 0 0 0

/-- The instruction the decoder reads from a table word: the table numbers the bits of the one 64-bit word `W`, so
the number is `W` itself; bits at `nbits` and above are zero; a number that does not fit 64 bits is no word (log 11). -/
def decodeTableWord (nbits w : Nat) : Option Instr :=
  if w % 2 ^ nbits < 2 ^ 64 then
    match decode (BitVec.ofNat 64 (w % 2 ^ nbits)) with
    | .instr i => some i
    | .invalidOpcode => none
    | .invalidRegister _ => none
  else none

/-- A row of spec/opcode_table.json: its opcode, its `match` and `mask`, and the lowest bit positions of its
register fields in the order `r1`, `r2`, `r3` (R64). -/
structure TableRow where
  opcode    : Opcode
  matchBits : IWord
  mask      : IWord
  regFields : List Nat
  deriving DecidableEq, Repr

/-- The 16 rows of spec/opcode_table.json, copied from it. -/
def opcodeTable : List TableRow :=
  [ ⟨.add, 0x0100000000000000, 0xFF000FFFFFFFFFFF, [52, 48, 44]⟩,
    ⟨.sub, 0x0200000000000000, 0xFF000FFFFFFFFFFF, [52, 48, 44]⟩,
    ⟨.inc, 0x0300000000000000, 0xFF0FFFFFFFFFFFFF, [52]⟩,
    ⟨.dec, 0x0400000000000000, 0xFF0FFFFFFFFFFFFF, [52]⟩,
    ⟨.and, 0x0500000000000000, 0xFF000FFFFFFFFFFF, [52, 48, 44]⟩,
    ⟨.or, 0x0600000000000000, 0xFF000FFFFFFFFFFF, [52, 48, 44]⟩,
    ⟨.xor, 0x0700000000000000, 0xFF000FFFFFFFFFFF, [52, 48, 44]⟩,
    ⟨.shl, 0x0800000000000000, 0xFF000FFFFFFFFFFF, [52, 48, 44]⟩,
    ⟨.shr, 0x0900000000000000, 0xFF000FFFFFFFFFFF, [52, 48, 44]⟩,
    ⟨.cmp, 0x0A00000000000000, 0xFF000FFFFFFFFFFF, [52, 48, 44]⟩,
    ⟨.const, 0x0B00000000000000, 0xFF0FFFFF00000000, [52]⟩,
    ⟨.load, 0x0C00000000000000, 0xFF00FFFF00000000, [52, 48]⟩,
    ⟨.store, 0x0D00000000000000, 0xFF00FFFF00000000, [52, 48]⟩,
    ⟨.jmp, 0x0E00000000000000, 0xFF0FFFFF00000000, [52]⟩,
    ⟨.bz, 0x0F00000000000000, 0xFF0FFFFF00000000, [52]⟩,
    ⟨.halt, 0x1000000000000000, 0xFFFFFFFFFFFFFFFF, []⟩ ]

/-- `W & mask == match` (R64). -/
def TableRow.matchesWord (row : TableRow) (w : IWord) : Bool :=
  w &&& row.mask == row.matchBits

/-- The first register field of a row that holds a selector above 8 (step 3 of R64). -/
def TableRow.firstBadSelector (row : TableRow) (w : IWord) : Option Sel :=
  (row.regFields.map fun lo => w.extractLsb' lo 4).find? fun sel => decide (8 < sel.toNat)

/-- The `n` bytes of a number, most significant first: the serialisation convention of R42. -/
def bytesOfNat : Nat → Nat → List Byte
  | 0, _ => []
  | n + 1, v => BitVec.ofNat 8 (v / 256 ^ n) :: bytesOfNat n v

/-- The number whose bytes are listed most significant first (R42). -/
def natOfBytes (bs : List Byte) : Nat :=
  bs.foldl (fun acc b => acc * 256 + b.toNat) 0

/-- An instruction word serialised to eight bytes (R42). -/
def bytesOfIWord (w : IWord) : List Byte :=
  bytesOfNat 8 w.toNat

/-- Decoding from serialised bytes: eight bytes are one word and the rest is left over; fewer are no word. -/
def decodeBytes (bs : List Byte) : Option (Decoded × List Byte) :=
  if 8 ≤ bs.length then
    some (decode (BitVec.ofNat 64 (natOfBytes (bs.take 8))), bs.drop 8)
  else none

end Sys2Proof
end

