-- ==== Sys2Proof/Machine/State.lean ====
section
/-! DEFINITION. The state of the machine (10_state.md R13), the reasons a step can stop, and the state after reset
(R31). R0 has no field: it has no storage (R16). -/

namespace Sys2Proof.Machine

/-- The status (R23). The pin code 3 never occurs, so it has no constructor. -/
inductive Status where
  | running | halted | faulted
  deriving DecidableEq, Repr

/-- The recorded cause of a fault (R24, R143). Codes 5 to 7 never occur. -/
inductive FaultCause where
  | noFault | invalidOpcode | invalidRegister | memoryFault | programBoundsFault
  deriving DecidableEq, Repr

/-- Numbered cells of `w` bits, sparsely: the listed ones with their values; an unlisted one holds 0. Canonical form:
numbers strictly rising, no listed value 0 (`cellsWf`). -/
abbrev Cells (w : Nat) := List (Nat × BitVec w)

/-- The Program (R7, R29): PROG_LEN, and the words at indices below it; an unlisted index below PROG_LEN holds the
all-zero word, which is no instruction (R58; log 3). -/
structure Program where
  len   : Nat
  words : Cells 64
  deriving DecidableEq, Repr

/-- The machine (R13): seven stored registers and PC, data memory, status, the fault record, the output sequence,
and the Program it runs. -/
structure State where
  r1 : Word
  r2 : Word
  r3 : Word
  r4 : Word
  r5 : Word
  r6 : Word
  r7 : Word
  pc : Word
  mem : Cells 32
  status : Status
  faultCause : FaultCause
  faultPc : Word
  faultInfo : BitVec 64
  out : List Word
  program : Program
  deriving DecidableEq, Repr

/-- Why a step stops. The four faults of the spec are no constructors here: they are TAKEN, as a next state with
status Faulted and the fault record written (R141; log 5). -/
inductive Fault where
  /-- Raised by `step` in status Halted: no step is enabled (R72). Safe: the machine stops as the hardware does. -/
  | halted
  /-- Raised by `step` in status Faulted, with the recorded cause: no step is enabled (R72, R142). Safe. -/
  | faulted (cause : FaultCause)
  deriving DecidableEq, Repr

/-- Why an instruction is given no meaning. -/
inductive Refusal where
  /-- Raised by a refused arm of `exec` only; no arm is refused. Safe. -/
  | notModelled (mnemonic : String)
  /-- Raised by LOAD, STORE, JMP and BZ on an offset outside -2^31 .. 2^31 - 1, which has no encoding and which R62
  says a record-level model refuses. No decoded instruction has one. Safe. -/
  | offsetNotEncodable
  deriving DecidableEq, Repr

/-- The outcome type of the machine. -/
abbrev StepOutcome := Host.Outcome State Fault Refusal

/-- The state after reset (R31, R154). The Program is no part of it (R29); here it is the empty one, PROG_LEN = 0,
until a host loads one (log 2). -/
def State.reset : State :=
  { r1 := 0
    r2 := 0
    r3 := 0
    r4 := 0
    r5 := 0
    r6 := 0
    r7 := Config.r7Reset
    pc := Config.pcReset
    mem := []
    status := .running
    faultCause := .noFault
    faultPc := 0
    faultInfo := 0
    out := []
    program := { len := 0, words := [] } }

end Sys2Proof.Machine
end

