-- ==== Sys2Proof/Machine/Alu.lean ====
section
/-! DEFINITION. The 32-bit functions of the alu (R89): arithmetic modulo 2^32 (R93), bitwise logic (R100 to R102) and
shifts by a full 32-bit count (R103). They report no carry, borrow or overflow: none exists (R25). -/

namespace Sys2Proof.Machine

/-- ADD's result (R94). -/
def addWord (a b : Word) : Word := a + b

/-- SUB's result (R95): the first operand is the minuend. -/
def subWord (a b : Word) : Word := a - b

/-- INC's result (R96). -/
def incWord (a : Word) : Word := a + 1

/-- DEC's result (R97). -/
def decWord (a : Word) : Word := a - 1

/-- AND's result (R100). -/
def andWord (a b : Word) : Word := a &&& b

/-- OR's result (R101). -/
def orWord (a b : Word) : Word := a ||| b

/-- XOR's result (R102). -/
def xorWord (a b : Word) : Word := a ^^^ b

/-- SHL's result (R104): the count is all 32 bits of `n`, and 32 or more gives 0 (R103). -/
def shlWord (a n : Word) : Word := if 32 ≤ n.toNat then 0 else a <<< n.toNat

/-- SHR's result (R105): logical, with the same count rule. -/
def shrWord (a n : Word) : Word := if 32 ≤ n.toNat then 0 else a >>> n.toNat

end Sys2Proof.Machine
end

