-- ==== Sys2Proof/Machine/Flags.lean ====
section
/-! DEFINITION. The machine has no flags, condition codes or predicate registers (R25). What stands in for them: the
value CMP writes to a general register (R106) and the test BZ makes of one (R115). -/

namespace Sys2Proof.Machine

/-- CMP's result (R106): exactly 1 when the two 32-bit values are equal, else exactly 0. -/
def cmpWord (a b : Word) : Word := if a = b then 1 else 0

/-- BZ's condition (R115): all 32 bits are zero. -/
def isZeroWord (a : Word) : Bool := decide (a = 0)

end Sys2Proof.Machine
end

