-- ==== Sys2Proof/Machine/Ops.lean ====
section
/-! DEFINITION. The named operations over cells, program space, registers, data memory and the output port, and taking
a fault, the machine's one kind of exception. There is no return from a fault to write beside it (R147). -/

namespace Sys2Proof.Machine

/-! ### Sparse cells -/

/-- The value of a cell: its listed one, else 0 (R27, R155). -/
def cellsRead {w : Nat} : Cells w → Nat → BitVec w
  | [], _ => 0
  | (k, v) :: rest, a => if k = a then v else cellsRead rest a

/-- The cells without cell `a`. -/
def cellsErase {w : Nat} : Cells w → Nat → Cells w
  | [], _ => []
  | (k, v) :: rest, a => if k = a then cellsErase rest a else (k, v) :: cellsErase rest a

/-- Insertion before the first listed cell with a larger number. -/
def cellsInsert {w : Nat} : Cells w → Nat → BitVec w → Cells w
  | [], a, v => [(a, v)]
  | (k, x) :: rest, a, v => if a < k then (a, v) :: (k, x) :: rest else (k, x) :: cellsInsert rest a v

/-- Writing a cell, keeping the canonical form: the value an unlisted cell reads as is not listed. -/
def cellsWrite {w : Nat} (c : Cells w) (a : Nat) (v : BitVec w) : Cells w :=
  if v = 0 then cellsErase c a else cellsInsert (cellsErase c a) a v

/-- The canonical form below a bound: numbers strictly rising from `lo`, all below `bound`, no value 0. -/
def cellsWfFrom {w : Nat} (bound : Nat) : Nat → Cells w → Bool
  | _, [] => true
  | lo, (k, v) :: rest => decide (lo ≤ k) && decide (k < bound) && decide (v ≠ 0) && cellsWfFrom bound (k + 1) rest

/-- The canonical form. -/
def cellsWf {w : Nat} (bound : Nat) (c : Cells w) : Bool :=
  cellsWfFrom bound 0 c

/-- Data memory in canonical form, over the 65536 cells of R33. -/
def Memory.wf (m : Cells 32) : Bool :=
  cellsWf Config.memCells m

/-- A Program with PROG_LEN in 0 .. 2^32 (R7) and its words below PROG_LEN. -/
def Program.wf (p : Program) : Bool :=
  decide (p.len ≤ Config.maxProgLen) && cellsWf p.len p.words

/-! ### Program space (R46, R47, R73) -/

/-- `Prog[i]` for an index inside the Program, nothing elsewhere. -/
def Program.fetch (p : Program) (i : Nat) : Option IWord :=
  if i < p.len then some (cellsRead p.words i) else none

/-- The Program with the word at index `i` replaced, lengthened to hold it: what a host that loads a program does
before the run (R156, R163). No instruction reaches it. -/
def Program.place (p : Program) (i : Nat) (w : IWord) : Program :=
  { len := max p.len (i + 1), words := cellsWrite p.words i w }

/-- The Program whose words are listed from index 0 (R156). -/
def Program.ofWords (ws : List IWord) : Program :=
  ws.foldl (fun p w => p.place p.len w) { len := 0, words := [] }

/-! ### Registers (R10, R16, R20, R21) -/

/-- `x[s]`: R0 reads 0, R1 to R7 their value, PC the program counter as it stands (in the execute phase, i + 1). -/
def State.getReg (s : State) : Reg → Word
  | .r0 => 0
  | .r1 => s.r1
  | .r2 => s.r2
  | .r3 => s.r3
  | .r4 => s.r4
  | .r5 => s.r5
  | .r6 => s.r6
  | .r7 => s.r7
  | .pc => s.pc

/-- `x[s] <- v`: a write to R0 is dropped (R16); a write to PC is `pc <- v` (R21). -/
def State.setReg (s : State) (r : Reg) (v : Word) : State :=
  match r with
  | .r0 => s
  | .r1 => { s with r1 := v }
  | .r2 => { s with r2 := v }
  | .r3 => { s with r3 := v }
  | .r4 => { s with r4 := v }
  | .r5 => { s with r5 := v }
  | .r6 => { s with r6 := v }
  | .r7 => { s with r7 := v }
  | .pc => { s with pc := v }

/-- `pc <- t` (R10). -/
def State.setPc (s : State) (t : Word) : State :=
  { s with pc := t }

/-- Phase 3 of the step (R76): `pc <- (i + 1) mod 2^32`. -/
def State.preIncrement (s : State) : State :=
  s.setPc (s.pc + 1)

/-! ### Data memory and the output port (R35, R36, R39) -/

/-- One cell of data memory by number. -/
def State.cell (s : State) (a : Nat) : Word :=
  cellsRead s.mem a

/-- The addresses that exist (R34, R45). -/
def addressValid (ea : Int) : Bool :=
  decide (0 ≤ ea) && decide (ea < Config.memCells)

/-- `MemRead(addr, 1)`: the cell, or nothing where MemoryFault is to be raised (R35). A read has no side effect, at
the port too (R37, R40). -/
def State.memRead (s : State) (ea : Int) : Option Word :=
  if addressValid ea then some (s.cell ea.toNat) else none

/-- Appending to the output sequence (R28). -/
def State.emit (s : State) (v : Word) : State :=
  { s with out := s.out ++ [v] }

/-- Writing one cell of data memory. -/
def State.setCell (s : State) (a : Nat) (v : Word) : State :=
  { s with mem := cellsWrite s.mem a v }

/-- A store to a cell that exists: the write, and at the port's address the value is emitted as well (R36, R39). -/
def State.storeCell (s : State) (a : Nat) (v : Word) : State :=
  if a = Config.ioOut then (s.setCell a v).emit v else s.setCell a v

/-- `MemWrite(addr, 1, v)`: the store, or nothing where MemoryFault is to be raised (R36). -/
def State.memWrite (s : State) (ea : Int) (v : Word) : Option State :=
  if addressValid ea then some (s.storeCell ea.toNat v) else none

/-! ### Halting and taking a fault -/

/-- `status <- Halted` (R116). -/
def State.halt (s : State) : State :=
  { s with status := .halted }

/-- Taking a fault, given the state BEFORE the step (R141, R143): status becomes Faulted, the record is written with
the index of the faulting fetch or instruction, and nothing else changes, PC included. -/
def State.takeFault (s : State) (cause : FaultCause) (info : BitVec 64) : State :=
  { s with status := .faulted, faultCause := cause, faultPc := s.pc, faultInfo := info }

/-- `zext_64(pc)` (R143). -/
def infoOfPc (pc : Word) : BitVec 64 :=
  pc.setWidth 64

/-- `zext_64` of the offending selector (R143). -/
def infoOfSelector (sel : Sel) : BitVec 64 :=
  sel.setWidth 64

/-- `sext_64(EA)` (R140, R143). -/
def infoOfAddress (ea : Int) : BitVec 64 :=
  BitVec.ofInt 64 ea

/-- ProgramBoundsFault (R137), raised by the fetch. -/
def State.programBoundsFault (s : State) : State :=
  s.takeFault .programBoundsFault (infoOfPc s.pc)

/-- InvalidOpcode (R138), raised by the decode of `w`. -/
def State.invalidOpcodeFault (s : State) (w : IWord) : State :=
  s.takeFault .invalidOpcode w

/-- InvalidRegister (R139), raised by the decode. -/
def State.invalidRegisterFault (s : State) (sel : Sel) : State :=
  s.takeFault .invalidRegister (infoOfSelector sel)

/-- MemoryFault (R140), raised by a LOAD or STORE. -/
def State.memoryFault (s : State) (ea : Int) : State :=
  s.takeFault .memoryFault (infoOfAddress ea)

/-! ### Fetch -/

/-- Phase 1 (R73): the word at index PC, or nothing when PC is outside the Program. -/
def State.fetch (s : State) : Option IWord :=
  s.program.fetch s.pc.toNat

/-- What is fetched and how it decodes (R73, R74). -/
def State.fetchDecode (s : State) : Option Decoded :=
  s.fetch.map decode

/-- The state with a word stored at the index that the next fetch reads. -/
def State.placeAtPc (s : State) (w : IWord) : State :=
  { s with program := s.program.place s.pc.toNat w }

end Sys2Proof.Machine
end

