-- ==== Sys2Proof/Machine/Operands.lean ====
section
/-! DEFINITION. The operand forms: register sources and a register destination (R15, R18), the immediate (R60, R62),
base plus signed offset (R34, R111), and the two branch targets (R114, R115). Every operation here is given the state
BEFORE the step and performs the pre-increment itself (R76), so that a fault can leave that state as it was (R141). -/

namespace Sys2Proof.Machine

/-- Two sources and a destination, format RRR: both sources are read before the write (R80). -/
def binaryOp (f : Word → Word → Word) (ra rb rd : Reg) (s : State) : StepOutcome :=
  .next (s.preIncrement.setReg rd (f (s.preIncrement.getReg ra) (s.preIncrement.getReg rb)))

/-- One register that is source and destination, format R. -/
def unaryOp (f : Word → Word) (ra : Reg) (s : State) : StepOutcome :=
  .next (s.preIncrement.setReg ra (f (s.preIncrement.getReg ra)))

/-- CONST's immediate as a `u32`: the value reduced modulo 2^32 (R62, R108). -/
def immediateWord (value : Nat) : Word :=
  BitVec.ofNat 32 value

/-- An offset operand: one without an encoding is refused (R62). -/
def withOffset (offset : Int) (k : StepOutcome) : StepOutcome :=
  if offsetEncodable offset then k else .refused .offsetNotEncodable

/-- The effective address (R34): the exact integer sum, not reduced. -/
def effectiveAddress (base : Word) (offset : Int) : Int :=
  (base.toNat : Int) + offset

/-- The address a LOAD or STORE at `s` forms from its base operand, read in the execute phase. -/
def addressOperand (base : Reg) (offset : Int) (s : State) : Int :=
  effectiveAddress (s.preIncrement.getReg base) offset

/-- A branch target (R22, R114, R115): the exact sum reduced modulo 2^32. -/
def branchTarget (base : Word) (offset : Int) : Word :=
  BitVec.ofInt 32 ((base.toNat : Int) + offset)

end Sys2Proof.Machine
end

