-- ==== Sys2Proof/Machine/Arithmetic.lean ====
section
/-! DEFINITION. ADD, SUB, INC, DEC (41_arithmetic.md). -/

namespace Sys2Proof.Machine

/-- `ADD Ra, Rb, Rd` (R94). -/
def execAdd (ra rb rd : Reg) (s : State) : StepOutcome :=
  binaryOp addWord ra rb rd s

/-- `SUB Ra, Rb, Rd` (R95). -/
def execSub (ra rb rd : Reg) (s : State) : StepOutcome :=
  binaryOp subWord ra rb rd s

/-- `INC Ra` (R96). -/
def execInc (ra : Reg) (s : State) : StepOutcome :=
  unaryOp incWord ra s

/-- `DEC Ra` (R97). -/
def execDec (ra : Reg) (s : State) : StepOutcome :=
  unaryOp decWord ra s

end Sys2Proof.Machine
end

