-- ==== Sys2Proof/Machine/Control.lean ====
section
/-! DEFINITION. JMP, BZ, HALT (44_control_halt.md). A target is not checked here: the check is the next fetch (R113). -/

namespace Sys2Proof.Machine

/-- `JMP Rd, offset` (R114). -/
def execJmp (rd : Reg) (offset : Int) (s : State) : StepOutcome :=
  withOffset offset <|
    .next (s.preIncrement.setPc (branchTarget (s.preIncrement.getReg rd) offset))

/-- `BZ Rt, offset` (R115): relative to the pre-incremented PC. -/
def execBz (rt : Reg) (offset : Int) (s : State) : StepOutcome :=
  withOffset offset <|
    if isZeroWord (s.preIncrement.getReg rt) then
      .next (s.preIncrement.setPc (branchTarget s.preIncrement.pc offset))
    else
      .next s.preIncrement

/-- `HALT` (R116): PC is left at the index after it. -/
def execHalt (s : State) : StepOutcome :=
  .next s.preIncrement.halt

end Sys2Proof.Machine
end

