-- ==== Sys2Proof/Machine/DataMovement.lean ====
section
/-! DEFINITION. CONST, LOAD, STORE (43_const_load_store.md). -/

namespace Sys2Proof.Machine

/-- `CONST value, Rd` (R108). -/
def execConst (value : Nat) (rd : Reg) (s : State) : StepOutcome :=
  .next (s.preIncrement.setReg rd (immediateWord value))

/-- `LOAD Rs, Rd, offset` (R109): Rs is the base. Outside 0 .. 65535 it takes MemoryFault and Rd is not written, for
a destination of R0 too. -/
def execLoad (rs rd : Reg) (offset : Int) (s : State) : StepOutcome :=
  withOffset offset <|
    match s.preIncrement.memRead (addressOperand rs offset s) with
    | some v => .next (s.preIncrement.setReg rd v)
    | none => .next (s.memoryFault (addressOperand rs offset s))

/-- `STORE Rs, Rd, offset` (R110): Rs is the data, Rd the base (R112). Outside 0 .. 65535 it takes MemoryFault;
nothing is written or emitted. -/
def execStore (rs rd : Reg) (offset : Int) (s : State) : StepOutcome :=
  withOffset offset <|
    match s.preIncrement.memWrite (addressOperand rd offset s) (s.preIncrement.getReg rs) with
    | some t => .next t
    | none => .next (s.memoryFault (addressOperand rd offset s))

end Sys2Proof.Machine
end

