-- ==== Sys2Proof/Machine/Logic.lean ====
section
/-! DEFINITION. AND, OR, XOR, SHL, SHR, CMP (42_logic_shift_compare.md). -/

namespace Sys2Proof.Machine

/-- `AND Ra, Rb, Rd` (R100). -/
def execAnd (ra rb rd : Reg) (s : State) : StepOutcome :=
  binaryOp andWord ra rb rd s

/-- `OR Ra, Rb, Rd` (R101). -/
def execOr (ra rb rd : Reg) (s : State) : StepOutcome :=
  binaryOp orWord ra rb rd s

/-- `XOR Ra, Rb, Rd` (R102). -/
def execXor (ra rb rd : Reg) (s : State) : StepOutcome :=
  binaryOp xorWord ra rb rd s

/-- `SHL Ra, Rb, Rd` (R103, R104): Ra the value, Rb the count. -/
def execShl (ra rb rd : Reg) (s : State) : StepOutcome :=
  binaryOp shlWord ra rb rd s

/-- `SHR Ra, Rb, Rd` (R103, R105): Ra the value, Rb the count. -/
def execShr (ra rb rd : Reg) (s : State) : StepOutcome :=
  binaryOp shrWord ra rb rd s

/-- `CMP Ra, Rb, Rd` (R106). -/
def execCmp (ra rb rd : Reg) (s : State) : StepOutcome :=
  binaryOp cmpWord ra rb rd s

end Sys2Proof.Machine
end

