-- ==== Sys2Proof/Machine/Dispatch.lean ====
section
/-! DEFINITION. One arm per instruction: phases 3 and 4 of the step (R76, R77) on the state before the step. -/

namespace Sys2Proof.Machine

def exec (i : Instr) (s : State) : Host.Outcome State Fault Refusal :=
  match i with
  | .add ra rb rd => Sys2Proof.Machine.execAdd ra rb rd s
  | .sub ra rb rd => Sys2Proof.Machine.execSub ra rb rd s
  | .inc ra => Sys2Proof.Machine.execInc ra s
  | .dec ra => Sys2Proof.Machine.execDec ra s
  | .and ra rb rd => Sys2Proof.Machine.execAnd ra rb rd s
  | .or ra rb rd => Sys2Proof.Machine.execOr ra rb rd s
  | .xor ra rb rd => Sys2Proof.Machine.execXor ra rb rd s
  | .shl ra rb rd => Sys2Proof.Machine.execShl ra rb rd s
  | .shr ra rb rd => Sys2Proof.Machine.execShr ra rb rd s
  | .cmp ra rb rd => Sys2Proof.Machine.execCmp ra rb rd s
  | .const value rd => Sys2Proof.Machine.execConst value rd s
  | .load rs rd offset => Sys2Proof.Machine.execLoad rs rd offset s
  | .store rs rd offset => Sys2Proof.Machine.execStore rs rd offset s
  | .jmp rd offset => Sys2Proof.Machine.execJmp rd offset s
  | .bz rt offset => Sys2Proof.Machine.execBz rt offset s
  | .halt => Sys2Proof.Machine.execHalt s

end Sys2Proof.Machine
end

