-- ==== Sys2Proof/Machine/Step.lean ====
section
/-! DEFINITION. One step of the machine (R72, R82): enabled only in status Running; fetch, decode, execute. The
observer phase and the normalisation of R0 change nothing (R78, R79). -/

namespace Sys2Proof.Machine

/-- `Step()` of R82. A fault is taken: a next state that differs in the status and the record only (R141). In status
Halted or Faulted no step is enabled (R72). -/
def step (s : State) : Host.Outcome State Fault Refusal :=
  match s.status with
  | .halted => .fault .halted
  | .faulted => .fault (.faulted s.faultCause)
  | .running =>
    match s.fetch with
    | none => .next s.programBoundsFault
    | some w =>
      match decode w with
      | .invalidOpcode => .next (s.invalidOpcodeFault w)
      | .invalidRegister sel => .next (s.invalidRegisterFault sel)
      | .instr i => exec i s

/-- The state with a table word stored where the next fetch reads: at index PC of the Program, which is lengthened to
hold it where it is shorter (log 2, log 11). -/
def State.withFetchWord (s : State) (nbits w : Nat) : State :=
  s.placeAtPc (BitVec.ofNat 64 (w % 2 ^ nbits))

end Sys2Proof.Machine
end

