-- ==== Sys2Proof/Machine/HostPort.lean ====
section
/-! DEFINITION. What the host may do to the machine and see of it (70_reset_and_hazards.md R153 to R164): load, reset,
and the codes on the status and fault pins. None of these is a step. -/

namespace Sys2Proof.Machine

/-- The launch state of a run (R164): the reset state with the given Program in place. -/
def State.launch (p : Program) : State :=
  { State.reset with program := p }

/-- Reset from any state (R122, R158): all state takes its reset value; the program store is outside the core and is
not touched (R124). -/
def State.applyReset (s : State) : State :=
  State.launch s.program

/-- The status on the pins (R23). -/
def statusCode : Status → BitVec 2
  | .running => 0
  | .halted => 1
  | .faulted => 2

/-- The fault cause on the pins (R24, R143). -/
def causeCode : FaultCause → BitVec 3
  | .noFault => 0
  | .invalidOpcode => 1
  | .invalidRegister => 2
  | .memoryFault => 3
  | .programBoundsFault => 4

/-- The optional read-only debug view (R135, R150): R1 to R7, PC and status. -/
structure DebugView where
  regs   : List Word
  pc     : Word
  status : BitVec 2
  deriving DecidableEq, Repr

/-- What the debug view shows of a state. It has no input into the machine. -/
def State.debugView (s : State) : DebugView :=
  { regs := [s.r1, s.r2, s.r3, s.r4, s.r5, s.r6, s.r7], pc := s.pc, status := statusCode s.status }

end Sys2Proof.Machine
end

