-- ==== Sys2Proof/Machine/Blocks.lean ====
section
/-! DEFINITION. The seven hardware blocks and their ports (48_block_interfaces.md, R86 to R92, R121 to R134), written
from the port tables and apart from `step`: each output port is a function of the block's inputs, `wires` connects
them, and `edge` is the state after one rising edge of `clk`. -/

namespace Sys2Proof.Machine.Blocks

/-! ### fetch_unit (R125) -/

/-- `prog_len`, 33 bits (R124). -/
def progLenPort (s : State) : BitVec 33 :=
  BitVec.ofNat 33 s.program.len

/-- `imem_rdata`: the program store's answer to `imem_addr` (R124); free outside the Program. -/
def imemRdata (s : State) (addr : Word) : IWord :=
  match s.program.fetch addr.toNat with
  | some w => w
  | none => Config.imemOutside addr

/-- `fetch_fault = (zext_33(pc) >= prog_len)`. -/
def fetchFault (pc : Word) (progLen : BitVec 33) : Bool :=
  decide (progLen ≤ pc.setWidth 33)

/-! ### instruction_decoder (R126) -/

/-- `op = instr[63:56]`. -/
def op (instr : IWord) : BitVec 8 := instr.extractLsb' 56 8

/-- `sel1 = instr[55:52]`. -/
def sel1 (instr : IWord) : Sel := instr.extractLsb' 52 4

/-- `sel2 = instr[51:48]`. -/
def sel2 (instr : IWord) : Sel := instr.extractLsb' 48 4

/-- `sel3 = instr[47:44]`. -/
def sel3 (instr : IWord) : Sel := instr.extractLsb' 44 4

/-- `imm = instr[31:0]`. -/
def imm (instr : IWord) : Word := instr.extractLsb' 0 32

/-- The row of the opcode table the word matches (R64). -/
def matchedRow (instr : IWord) : Option TableRow :=
  opcodeTable.find? fun row => row.matchesWord instr

/-- `dec_invalid_opcode`: the word matches no row (R64, steps 1 and 2). -/
def decInvalidOpcode (instr : IWord) : Bool :=
  (matchedRow instr).isNone

/-- The first offending selector of a word that matches a row (R64, step 3). -/
def offendingSel (instr : IWord) : Option Sel :=
  (matchedRow instr).bind fun row => row.firstBadSelector instr

/-- `dec_invalid_register`, only when `dec_invalid_opcode = 0`. -/
def decInvalidRegister (instr : IWord) : Bool :=
  (offendingSel instr).isSome

/-- `bad_sel`: the first offending selector; free where there is none (log 8). -/
def badSel (instr : IWord) : Sel :=
  (offendingSel instr).getD (Config.unusedPort 4 instr)

/-- The word is an instruction: neither decode fault is raised. -/
def isInstruction (instr : IWord) : Bool :=
  !(decInvalidOpcode instr || decInvalidRegister instr)

/-- A 1-bit output of the decoder, which R126 gives for an instruction; free for any other word (log 8). -/
def classPort (n : Nat) (instr : IWord) (v : Bool) : Bool :=
  if isInstruction instr then v else Config.unusedBit n instr

/-- A selector output of the decoder, which R126 gives for an instruction; free for any other word (log 8). -/
def selPort (n : Nat) (instr : IWord) (v : Sel) : Sel :=
  if isInstruction instr then v else Config.unusedPort n instr

/-- The opcodes of the first row of R126's selector table. -/
def opIsThreeReg (op : BitVec 8) : Bool :=
  op == 0x01 || op == 0x02 || op == 0x05 || op == 0x06 || op == 0x07 || op == 0x08 || op == 0x09 || op == 0x0A

/-- INC and DEC. -/
def opIsOneReg (op : BitVec 8) : Bool := op == 0x03 || op == 0x04

/-- CONST. -/
def opIsConst (op : BitVec 8) : Bool := op == 0x0B

/-- LOAD. -/
def opIsLoad (op : BitVec 8) : Bool := op == 0x0C

/-- STORE. -/
def opIsStore (op : BitVec 8) : Bool := op == 0x0D

/-- HALT. -/
def opIsHalt (op : BitVec 8) : Bool := op == 0x10

/-- `is_load`. -/
def isLoad (instr : IWord) : Bool := classPort 0 instr (opIsLoad (op instr))

/-- `is_store`. -/
def isStore (instr : IWord) : Bool := classPort 1 instr (opIsStore (op instr))

/-- `is_jmp`. -/
def isJmp (instr : IWord) : Bool := classPort 2 instr (op instr == 0x0E)

/-- `is_bz`. -/
def isBz (instr : IWord) : Bool := classPort 3 instr (op instr == 0x0F)

/-- `is_halt`. -/
def isHalt (instr : IWord) : Bool := classPort 4 instr (opIsHalt (op instr))

/-- `wr_en`: the instruction has a destination register operand. -/
def wrEn (instr : IWord) : Bool :=
  classPort 5 instr
    (opIsThreeReg (op instr) || opIsOneReg (op instr) || opIsConst (op instr) || opIsLoad (op instr))

/-- `alu_op`: `op[3:0]` for `op` in 0x01 .. 0x0B, as R126 gives it by `op` alone; free elsewhere (log 8). -/
def aluOp (instr : IWord) : Sel :=
  if 1 ≤ (op instr).toNat ∧ (op instr).toNat ≤ 11 then (op instr).setWidth 4 else Config.unusedPort 0 instr

/-- `rd_a_sel`, by the selector table: 0 for CONST and HALT, `sel1` for every other instruction. -/
def rdASel (instr : IWord) : Sel :=
  selPort 1 instr (if opIsConst (op instr) || opIsHalt (op instr) then 0 else sel1 instr)

/-- `rd_b_sel`, by the selector table: `sel2` for the three-register instructions and STORE, 0 for the others. -/
def rdBSel (instr : IWord) : Sel :=
  selPort 2 instr (if opIsThreeReg (op instr) || opIsStore (op instr) then sel2 instr else 0)

/-- `wr_sel`, by the selector table; free where the table calls it unused (log 8). -/
def wrSel (instr : IWord) : Sel :=
  selPort 3 instr
    (if opIsThreeReg (op instr) then sel3 instr
     else if opIsOneReg (op instr) || opIsConst (op instr) then sel1 instr
     else if opIsLoad (op instr) then sel2 instr
     else Config.unusedPort 3 instr)

/-! ### register_file (R127) -/

/-- A read port: selector 0 gives 0, 1 to 7 give R1 to R7, 8 gives `pc_plus_1`; free above 8. -/
def regRead (s : State) (sel : Sel) : Word :=
  match sel.toNat with
  | 0 => 0
  | 1 => s.r1
  | 2 => s.r2
  | 3 => s.r3
  | 4 => s.r4
  | 5 => s.r5
  | 6 => s.r6
  | 7 => s.r7
  | 8 => s.pc + 1
  | _ => Config.unusedRead sel

/-- One stored register at the edge: `wr_en` is gated by `commit` (R132). -/
def regNext (old : Word) (n : Nat) (wrEnCommitted : Bool) (wrSel : Sel) (wrData : Word) : Word :=
  if wrEnCommitted && wrSel.toNat == n then wrData else old

/-! ### alu (R128) -/

/-- `y` by `alu_op`; for INC and DEC the second operand is the constant 1; free for the other codes. -/
def alu (aluOp : Sel) (a b imm : Word) : Word :=
  match aluOp.toNat with
  | 1 => a + b
  | 2 => a - b
  | 3 => a + 1
  | 4 => a - 1
  | 5 => a &&& b
  | 6 => a ||| b
  | 7 => a ^^^ b
  | 8 => if 32 ≤ b.toNat then 0 else a <<< b.toNat
  | 9 => if 32 ≤ b.toNat then 0 else a >>> b.toNat
  | 10 => if a = b then 1 else 0
  | 11 => imm
  | _ => Config.unusedAluResult aluOp a b imm

/-! ### memory_interface (R130, R131) -/

/-- `ea`: the 34-bit two's complement sum `zext_34(base) + sext_34(imm)`. -/
def ea (base imm : Word) : BitVec 34 :=
  base.setWidth 34 + imm.signExtend 34

/-- `mem_fault`. -/
def memFault (isLoad isStore : Bool) (ea : BitVec 34) : Bool :=
  (isLoad || isStore) && (decide (ea.toInt < 0) || decide (65535 < ea.toInt))

/-- `ea[15:0]`: the cell the array is addressed with, and `store_addr`. -/
def cellAddr (ea : BitVec 34) : BitVec 16 :=
  ea.setWidth 16

/-- `load_data = Mem[ea[15:0]]`. -/
def loadData (s : State) (ea : BitVec 34) : Word :=
  cellsRead s.mem (cellAddr ea).toNat

/-! ### pc_next_logic (R129, R132) -/

/-- `commit`. -/
def commit (rst : Bool) (status : Status) (fetchFault decInvalidOpcode decInvalidRegister memFault : Bool) : Bool :=
  !rst && status == .running && !(fetchFault || decInvalidOpcode || decInvalidRegister || memFault)

/-- `pc_next`, in the priority order of R129. -/
def pcNext (commit isJmp isBz wrEn : Bool) (wrSel : Sel) (pc pcPlus1 a imm wrData : Word) : Word :=
  if !commit then pc
  else if isJmp then a + imm
  else if isBz && a == 0 then pcPlus1 + imm
  else if wrEn && wrSel == 8 then wrData
  else pcPlus1

/-- The cause latched on a faulting edge, by the priority of R144. -/
def causeLatched (fetchFault decInvalidOpcode decInvalidRegister : Bool) : FaultCause :=
  if fetchFault then .programBoundsFault
  else if decInvalidOpcode then .invalidOpcode
  else if decInvalidRegister then .invalidRegister
  else .memoryFault

/-- `fault_info` latched on a faulting edge (R143). -/
def infoLatched (fetchFault decInvalidOpcode decInvalidRegister : Bool) (pc : Word) (instr : IWord) (badSel : Sel)
    (ea : BitVec 34) : BitVec 64 :=
  if fetchFault then pc.setWidth 64
  else if decInvalidOpcode then instr
  else if decInvalidRegister then badSel.setWidth 64
  else ea.signExtend 64

/-! ### io_port_mapper (R133) -/

/-- `io_out_valid = store_commit and (store_addr == 0xFFFF)`. -/
def ioOutValid (storeCommit : Bool) (storeAddr : BitVec 16) : Bool :=
  storeCommit && storeAddr == 0xFFFF

/-! ### The connected blocks -/

/-- The signals between the blocks in one cycle. -/
structure Wires where
  instr        : IWord
  fetchFault   : Bool
  rdA          : Word
  rdB          : Word
  ea           : BitVec 34
  memFault     : Bool
  commit       : Bool
  wrData       : Word
  storeData    : Word
  storeCommit  : Bool
  faultRequest : Bool
  deriving DecidableEq, Repr

/-- `base` of memory_interface: `rd_a_data` for LOAD, `rd_b_data` for STORE (R130); free in any other cycle (log 8). -/
def basePort (instr : IWord) (rdA rdB : Word) : Word :=
  if isLoad instr then rdA
  else if isStore instr then rdB
  else Config.unusedData 0 instr rdA rdB

/-- `store_data` of memory_interface and io_port_mapper: `rd_a_data` for STORE (R130); free in any other cycle (log 8). -/
def storeDataPort (instr : IWord) (rdA rdB : Word) : Word :=
  if isStore instr then rdA else Config.unusedData 1 instr rdA rdB

/-- `wr_data`: `load_data` for LOAD, the ALU's `y` for every other instruction with a destination (R127); free in any
other cycle (log 8). -/
def wrDataPort (instr : IWord) (rdA rdB loadData y : Word) : Word :=
  if isLoad instr then loadData
  else if wrEn instr then y
  else Config.unusedData 2 instr rdA rdB

/-- The blocks connected as the port tables say, in a cycle that starts in state `s`. -/
def wires (rst : Bool) (s : State) : Wires :=
  let instr := imemRdata s s.pc
  let ff := fetchFault s.pc (progLenPort s)
  let rdA := regRead s (rdASel instr)
  let rdB := regRead s (rdBSel instr)
  let ea := ea (basePort instr rdA rdB) (imm instr)
  let mf := memFault (isLoad instr) (isStore instr) ea
  let commit := commit rst s.status ff (decInvalidOpcode instr) (decInvalidRegister instr) mf
  { instr := instr
    fetchFault := ff
    rdA := rdA
    rdB := rdB
    ea := ea
    memFault := mf
    commit := commit
    wrData := wrDataPort instr rdA rdB (loadData s ea) (alu (aluOp instr) rdA rdB (imm instr))
    storeData := storeDataPort instr rdA rdB
    storeCommit := isStore instr && commit
    faultRequest := !rst && s.status == .running
      && (ff || decInvalidOpcode instr || decInvalidRegister instr || mf) }

/-- All state at the edge that ends a cycle without reset, from the state and the wires of that cycle (R123, R132). -/
def clocked (s : State) (w : Wires) : State :=
  { r1 := regNext s.r1 1 (wrEn w.instr && w.commit) (wrSel w.instr) w.wrData
    r2 := regNext s.r2 2 (wrEn w.instr && w.commit) (wrSel w.instr) w.wrData
    r3 := regNext s.r3 3 (wrEn w.instr && w.commit) (wrSel w.instr) w.wrData
    r4 := regNext s.r4 4 (wrEn w.instr && w.commit) (wrSel w.instr) w.wrData
    r5 := regNext s.r5 5 (wrEn w.instr && w.commit) (wrSel w.instr) w.wrData
    r6 := regNext s.r6 6 (wrEn w.instr && w.commit) (wrSel w.instr) w.wrData
    r7 := regNext s.r7 7 (wrEn w.instr && w.commit) (wrSel w.instr) w.wrData
    pc := pcNext w.commit (isJmp w.instr) (isBz w.instr) (wrEn w.instr) (wrSel w.instr) s.pc (s.pc + 1)
      w.rdA (imm w.instr) w.wrData
    mem := if w.storeCommit then cellsWrite s.mem (cellAddr w.ea).toNat w.storeData else s.mem
    status := if isHalt w.instr && w.commit then .halted else if w.faultRequest then .faulted else s.status
    faultCause := if w.faultRequest then
        causeLatched w.fetchFault (decInvalidOpcode w.instr) (decInvalidRegister w.instr) else s.faultCause
    faultPc := if w.faultRequest then s.pc else s.faultPc
    faultInfo := if w.faultRequest then
        infoLatched w.fetchFault (decInvalidOpcode w.instr) (decInvalidRegister w.instr) s.pc w.instr
          (badSel w.instr) w.ea else s.faultInfo
    out := if ioOutValid w.storeCommit (cellAddr w.ea) then s.out ++ [w.storeData] else s.out
    program := s.program }

/-- The state after one rising edge of `clk` (R122, R123). The output sequence is the host's record of the pulses of
`io_out_valid` (R133). -/
def edge (rst : Bool) (s : State) : State :=
  if rst then s.applyReset else clocked s (wires false s)

/-- The output ports of the CORE in a cycle (R124). -/
structure TopPorts where
  imemAddr   : Word
  ioOutValid : Bool
  ioOutData  : Word
  status     : BitVec 2
  faultCause : BitVec 3
  faultPc    : Word
  faultInfo  : BitVec 64
  deriving DecidableEq, Repr

/-- The output ports in a cycle that starts in state `s`: the port pulse is combinational (R133), the status and fault
outputs are registers (R134). `io_out_data` is `store_data` (R133), so it is free in a cycle that is no STORE (log 8). -/
def topPorts (rst : Bool) (s : State) : TopPorts :=
  { imemAddr := s.pc
    ioOutValid := ioOutValid (wires rst s).storeCommit (cellAddr (wires rst s).ea)
    ioOutData := (wires rst s).storeData
    status := statusCode s.status
    faultCause := causeCode s.faultCause
    faultPc := s.faultPc
    faultInfo := s.faultInfo }

end Sys2Proof.Machine.Blocks
end

