-- ==== Sys2Proof/Safety.lean ====
section
/-! DEFINITION. The terms claims use: what an instruction's operands are worth, what it leaves unchanged, what taking a
fault looks like, the invariant of the machine, and the history of stores and outputs of a run. -/

namespace Sys2Proof.Machine

/-! ### Operands and frames -/

/-- What a register operand is worth in the execute phase of the step at `s`, as a number (R10, R20): 0 for R0, the
register's value for R1 to R7, and (i + 1) mod 2^32 for PC. -/
def State.operand (s : State) : Reg → Nat
  | .r0 => 0
  | .r1 => s.r1.toNat
  | .r2 => s.r2.toNat
  | .r3 => s.r3.toNat
  | .r4 => s.r4.toNat
  | .r5 => s.r5.toNat
  | .r6 => s.r6.toNat
  | .r7 => s.r7.toNat
  | .pc => (s.pc.toNat + 1) % 2 ^ 32

/-- The program counter of `t` is the pre-incremented one of `s` (R22, R76). -/
def PcAdvances (s t : State) : Prop :=
  t.pc.toNat = (s.pc.toNat + 1) % 2 ^ 32

/-- Every general register but `except` is unchanged. -/
def KeepsRegsBut (s t : State) (except : Reg) : Prop :=
  ∀ r : Reg, r ≠ .pc → r ≠ except → t.getReg r = s.getReg r

/-- Every general register is unchanged. -/
def KeepsRegs (s t : State) : Prop :=
  ∀ r : Reg, r ≠ .pc → t.getReg r = s.getReg r

/-- Every cell of data memory reads as before. -/
def KeepsMemory (s t : State) : Prop :=
  ∀ a : Nat, t.cell a = s.cell a

/-- Every cell of data memory but `ea` reads as before. -/
def KeepsMemoryBut (s t : State) (ea : Int) : Prop :=
  ∀ a : Nat, (a : Int) ≠ ea → t.cell a = s.cell a

/-- The fault record and the Program are unchanged. -/
def KeepsRecord (s t : State) : Prop :=
  t.faultCause = s.faultCause ∧ t.faultPc = s.faultPc ∧ t.faultInfo = s.faultInfo ∧ t.program = s.program

/-- The whole effect of an instruction whose result `v` goes to the register operand `rd` (R16, R17, R21): `rd` holds
`v`, or 0 where it is R0; PC advances unless it is `rd`; nothing else changes. -/
def WritesResult (s t : State) (rd : Reg) (v : Nat) : Prop :=
  (t.getReg rd).toNat = (if rd = .r0 then 0 else v) ∧
  (rd ≠ .pc → PcAdvances s t) ∧
  KeepsRegsBut s t rd ∧ KeepsMemory s t ∧ t.out = s.out ∧ t.status = s.status ∧ KeepsRecord s t

/-- The whole effect of a control transfer (R113): PC is `target`, nothing else changes. -/
def TransfersTo (s t : State) (target : Nat) : Prop :=
  t.pc.toNat = target ∧ KeepsRegs s t ∧ KeepsMemory s t ∧ t.out = s.out ∧ t.status = s.status ∧ KeepsRecord s t

/-- The whole effect of a fault (R141, R143): status and record; no register, not PC, no cell, no output. -/
def TakesFault (s t : State) (cause : FaultCause) (info : BitVec 64) : Prop :=
  t.status = .faulted ∧ t.faultCause = cause ∧ t.faultPc = s.pc ∧ t.faultInfo = info ∧
  (∀ r : Reg, t.getReg r = s.getReg r) ∧ KeepsMemory s t ∧ t.out = s.out ∧ t.program = s.program

/-- The exact effective address of the step at `s` (R34). -/
def State.effAddr (s : State) (base : Reg) (offset : Int) : Int :=
  (s.operand base : Int) + offset

/-- An instruction that forms an address: LOAD from its first register operand, STORE from its second (R34, R112). -/
def Accesses (i : Instr) (base : Reg) (offset : Int) : Prop :=
  (∃ rd, i = .load base rd offset) ∨ (∃ rs, i = .store rs base offset)

/-- The destination register operand of an instruction, where it has one (R18, R117). -/
def destination : Instr → Option Reg
  | .add _ _ rd | .sub _ _ rd | .and _ _ rd | .or _ _ rd | .xor _ _ rd => some rd
  | .shl _ _ rd | .shr _ _ rd | .cmp _ _ rd => some rd
  | .inc ra | .dec ra => some ra
  | .const _ rd | .load _ rd _ => some rd
  | .store _ _ _ | .jmp _ _ | .bz _ _ | .halt => none

/-- JMP and BZ, which write PC by definition (R21). -/
def isTransfer : Instr → Bool
  | .jmp _ _ | .bz _ _ => true
  | .add _ _ _ | .sub _ _ _ | .and _ _ _ | .or _ _ _ | .xor _ _ _ => false
  | .shl _ _ _ | .shr _ _ _ | .cmp _ _ _ => false
  | .inc _ | .dec _ | .const _ _ | .load _ _ _ | .store _ _ _ | .halt => false

/-- The number of the word with these fields (R56). -/
def wordNumber (op r1 r2 r3 imm : Nat) : Nat :=
  op * 2 ^ 56 + r1 * 2 ^ 52 + r2 * 2 ^ 48 + r3 * 2 ^ 44 + imm

/-- The number of an offset in 32-bit two's complement (R61). -/
def offsetField (offset : Int) : Nat :=
  (offset % 2 ^ 32).toNat

/-- An instruction has the encoding `w`, both ways. -/
def EncodedAs (i : Instr) (w : Nat) : Prop :=
  (encode i).toNat = w ∧ decode (BitVec.ofNat 64 w) = .instr i

/-! ### The invariant -/

/-- Cell 65535 holds the value most recently emitted, or 0 if none was (R39, R40). -/
def State.portOk (s : State) : Bool :=
  s.cell Config.ioOut == s.out.getLastD 0

/-- The fault record tells the truth about the state it was written in (R24, R142, R143): without a fault it is all
zero; with one, PC is where it was raised, and the cause and the information are those of that fetch, decode or
access. -/
def State.recordOk (s : State) : Bool :=
  match s.faultCause with
  | .noFault => s.status != .faulted && s.faultPc == 0 && s.faultInfo == 0
  | .programBoundsFault =>
      s.status == .faulted && s.faultPc == s.pc && s.faultInfo.toNat == s.pc.toNat && decide (s.program.len ≤ s.pc.toNat)
  | .invalidOpcode =>
      s.status == .faulted && s.faultPc == s.pc && s.fetch == some s.faultInfo && decode s.faultInfo == .invalidOpcode
  | .invalidRegister =>
      s.status == .faulted && s.faultPc == s.pc && decide (9 ≤ s.faultInfo.toNat) && decide (s.faultInfo.toNat ≤ 15)
        && s.fetchDecode == some (.invalidRegister (s.faultInfo.setWidth 4))
  | .memoryFault =>
      s.status == .faulted && s.faultPc == s.pc && (decide (s.faultInfo.toInt < 0) || decide (65535 < s.faultInfo.toInt))
        && match s.fetchDecode with
          | some (.instr (.load rs _ offset)) => s.faultInfo.toInt == s.effAddr rs offset
          | some (.instr (.store _ rd offset)) => s.faultInfo.toInt == s.effAddr rd offset
          | _ => false

/-- The invariant of the machine: memory and Program in canonical form, PROG_LEN in its range, the fault record and
the port cell as the rules say. -/
abbrev State.Inv (s : State) : Prop :=
  Memory.wf s.mem = true ∧ s.program.wf = true ∧ s.recordOk = true ∧ s.portOk = true

/-! ### Runs -/

/-- A final state (R83): status Halted. A Faulted state is never final. -/
def State.final (s : State) : Bool :=
  s.status == .halted

/-- The step at `s` executes this instruction: it is enabled, fetches inside the Program, and decodes it. -/
def Executes (s : State) (i : Instr) : Prop :=
  s.status = .running ∧ s.fetchDecode = some (.instr i)

/-- The store that the step at `s` performs, as cell and value, if it performs one (R38, R110). -/
def storeEvent (s : State) : Option (Nat × Word) :=
  match s.status, s.fetchDecode with
  | .running, some (.instr (.store rs rd offset)) =>
      if addressValid (s.effAddr rd offset) then
        some ((s.effAddr rd offset).toNat, BitVec.ofNat 32 (s.operand rs))
      else none
  | _, _ => none

/-- The stores performed by the first `n` steps from `s`, in execution order (R49). -/
def storeEvents : Nat → State → List (Nat × Word)
  | 0, _ => []
  | n + 1, s =>
    match step s with
    | .next t => (storeEvent s).toList ++ storeEvents n t
    | .fault _ => []
    | .refused _ => []

/-- The value of the latest store to a cell, if there is one. -/
def latestStore (a : Nat) (events : List (Nat × Word)) : Option Word :=
  ((events.filter fun e => e.1 == a).map Prod.snd).getLast?

/-- The values of the stores to the port, in order. -/
def portValues (events : List (Nat × Word)) : List Word :=
  (events.filter fun e => e.1 == Config.ioOut).map Prod.snd

end Sys2Proof.Machine
end

