-- ==== Sys2Proof/Certificates/Slice0/Obligations.lean ====
section
/-! DEFINITION. The statements for the provers, from the numbered rules of spec/. Nothing is proved here. -/

open Sys2Proof Sys2Proof.Machine

/-! ### Encoding -/

/-- Words written out from the encodings of 30_encoding.md, one of each family, and the words R63, R65 and R66 refuse. -/
def Obligations.WrittenWordsDecodeAsTheRulesSay : Prop :=
  decode 0x0112300000000000 = .instr (.add .r1 .r2 .r3) ∧
  decode 0x0480000000000000 = .instr (.dec .pc) ∧
  decode 0x0914200000000000 = .instr (.shr .r1 .r4 .r2) ∧
  decode 0x0B100000FFFFFFFF = .instr (.const 4294967295 .r1) ∧
  decode 0x0C120000FFFFFFFF = .instr (.load .r1 .r2 (-1)) ∧
  decode 0x0D1000000000FFFF = .instr (.store .r1 .r0 65535) ∧
  decode 0x0E60000080000000 = .instr (.jmp .r6 (-2147483648)) ∧
  decode 0x0F200000FFFFFFFC = .instr (.bz .r2 (-4)) ∧
  decode 0x1000000000000000 = .instr .halt ∧
  decode 0x0000000000000000 = .invalidOpcode ∧
  decode 0x0112300000000001 = .invalidOpcode ∧
  decode 0x019A300000000000 = .invalidRegister 9

/-- Encoding then decoding gives every well-formed instruction back, with every operand at every value. -/
def Obligations.DecodeOfEncodeIsTheInstruction : Prop :=
  ∀ i : Instr, i.wf = true → decode (encode i) = .instr i

/-- A word that decodes to an instruction is that instruction's one encoding (R63), and the instruction is well formed. -/
def Obligations.EncodeOfDecodeIsTheWord : Prop :=
  ∀ (w : IWord) (i : Instr), decode w = .instr i → encode i = w ∧ i.wf = true

/-- R64 whole: no row of the opcode table matches and the answer is InvalidOpcode; or a row matches, and the answer is
InvalidRegister of its first selector above 8, or the row's instruction with the operands the word encodes. -/
def Obligations.DecodeFollowsTheOpcodeTable : Prop :=
  ∀ w : IWord,
    ((∀ row ∈ opcodeTable, row.matchesWord w = false) → decode w = .invalidOpcode) ∧
    (∀ row ∈ opcodeTable, row.matchesWord w = true →
      (∀ sel, row.firstBadSelector w = some sel → decode w = .invalidRegister sel) ∧
      (row.firstBadSelector w = none → ∃ i, decode w = .instr i ∧ i.opcode = row.opcode ∧ encode i = w))

/-- No word matches two rows of the opcode table. -/
def Obligations.OpcodeRowsNeverOverlap : Prop :=
  ∀ (w : IWord), ∀ row ∈ opcodeTable, ∀ row' ∈ opcodeTable,
    row.matchesWord w = true → row'.matchesWord w = true → row = row'

/-- The serialisation convention of R42: a word is eight bytes, most significant first, from which decoding reads it
back and leaves the rest. -/
def Obligations.SerialisedWordsDecodeAsThemselves : Prop :=
  ∀ (w : IWord) (rest : List Byte),
    (bytesOfIWord w).length = 8 ∧ (bytesOfIWord w)[0]? = some (w.extractLsb' 56 8) ∧
    decodeBytes (bytesOfIWord w ++ rest) = some (decode w, rest)

/-- R62: a CONST value counts modulo 2^32, and only the reduced one is encodable; only offsets in -2^31 .. 2^31 - 1 are
encodable, and another one is refused. -/
def Obligations.UnencodableOperandsAreReducedOrRefused : Prop :=
  (∀ (value : Nat) (rd : Reg) (s : State),
    exec (.const value rd) s = exec (.const (value % 2 ^ 32) rd) s ∧ (Instr.const (value % 2 ^ 32) rd).wf = true ∧
    (2 ^ 32 ≤ value → (Instr.const value rd).wf = false)) ∧
  (∀ (a b : Reg) (offset : Int), ∀ i ∈ [Instr.load a b offset, .store a b offset, .jmp a offset, .bz a offset],
    i.wf = true ↔ -(2 ^ 31) ≤ offset ∧ offset < 2 ^ 31) ∧
  (∀ (a b : Reg) (offset : Int) (s : State), (offset < -(2 ^ 31) ∨ 2 ^ 31 ≤ offset) →
    exec (.load a b offset) s = .refused .offsetNotEncodable ∧
    exec (.store a b offset) s = .refused .offsetNotEncodable ∧
    exec (.jmp a offset) s = .refused .offsetNotEncodable ∧
    exec (.bz a offset) s = .refused .offsetNotEncodable)

/-! ### The instructions -/

/-- R94. -/
def Obligations.AddWritesTheSumModulo : Prop :=
  ∀ (ra rb rd : Reg) (s : State),
    EncodedAs (.add ra rb rd) (wordNumber 0x01 ra.num rb.num rd.num 0) ∧
    ∃ t, exec (.add ra rb rd) s = .next t ∧ WritesResult s t rd ((s.operand ra + s.operand rb) % 2 ^ 32)

/-- R95. -/
def Obligations.SubWritesTheDifferenceModulo : Prop :=
  ∀ (ra rb rd : Reg) (s : State),
    EncodedAs (.sub ra rb rd) (wordNumber 0x02 ra.num rb.num rd.num 0) ∧
    ∃ t, exec (.sub ra rb rd) s = .next t ∧
      WritesResult s t rd
        (if s.operand rb ≤ s.operand ra then s.operand ra - s.operand rb else s.operand ra + 2 ^ 32 - s.operand rb)

/-- R96. -/
def Obligations.IncWritesTheSuccessorModulo : Prop :=
  ∀ (ra : Reg) (s : State),
    EncodedAs (.inc ra) (wordNumber 0x03 ra.num 0 0 0) ∧
    ∃ t, exec (.inc ra) s = .next t ∧ WritesResult s t ra ((s.operand ra + 1) % 2 ^ 32)

/-- R97. -/
def Obligations.DecWritesThePredecessorModulo : Prop :=
  ∀ (ra : Reg) (s : State),
    EncodedAs (.dec ra) (wordNumber 0x04 ra.num 0 0 0) ∧
    ∃ t, exec (.dec ra) s = .next t ∧
      WritesResult s t ra (if s.operand ra = 0 then 2 ^ 32 - 1 else s.operand ra - 1)

/-- R100, bit by bit. -/
def Obligations.AndSetsBitsSetInBoth : Prop :=
  ∀ (ra rb rd : Reg) (s : State),
    EncodedAs (.and ra rb rd) (wordNumber 0x05 ra.num rb.num rd.num 0) ∧
    ∃ t v, exec (.and ra rb rd) s = .next t ∧ WritesResult s t rd v ∧ v < 2 ^ 32 ∧
      ∀ k, k < 32 → v.testBit k = ((s.operand ra).testBit k && (s.operand rb).testBit k)

/-- R101, bit by bit. -/
def Obligations.OrSetsBitsSetInEither : Prop :=
  ∀ (ra rb rd : Reg) (s : State),
    EncodedAs (.or ra rb rd) (wordNumber 0x06 ra.num rb.num rd.num 0) ∧
    ∃ t v, exec (.or ra rb rd) s = .next t ∧ WritesResult s t rd v ∧ v < 2 ^ 32 ∧
      ∀ k, k < 32 → v.testBit k = ((s.operand ra).testBit k || (s.operand rb).testBit k)

/-- R102, bit by bit. -/
def Obligations.XorSetsBitsThatDiffer : Prop :=
  ∀ (ra rb rd : Reg) (s : State),
    EncodedAs (.xor ra rb rd) (wordNumber 0x07 ra.num rb.num rd.num 0) ∧
    ∃ t v, exec (.xor ra rb rd) s = .next t ∧ WritesResult s t rd v ∧ v < 2 ^ 32 ∧
      ∀ k, k < 32 → v.testBit k = ((s.operand ra).testBit k != (s.operand rb).testBit k)

/-- R104, with the count of R103: the formula covers every count, and 32 or more gives 0. -/
def Obligations.ShlMultipliesByThePowerModulo : Prop :=
  ∀ (ra rb rd : Reg) (s : State),
    EncodedAs (.shl ra rb rd) (wordNumber 0x08 ra.num rb.num rd.num 0) ∧
    ∃ t, exec (.shl ra rb rd) s = .next t ∧
      WritesResult s t rd (if 32 ≤ s.operand rb then 0 else (s.operand ra * 2 ^ s.operand rb) % 2 ^ 32)

/-- R105, with the count of R103. -/
def Obligations.ShrDividesByThePower : Prop :=
  ∀ (ra rb rd : Reg) (s : State),
    EncodedAs (.shr ra rb rd) (wordNumber 0x09 ra.num rb.num rd.num 0) ∧
    ∃ t, exec (.shr ra rb rd) s = .next t ∧
      WritesResult s t rd (if 32 ≤ s.operand rb then 0 else s.operand ra / 2 ^ s.operand rb)

/-- R106. -/
def Obligations.CmpWritesExactlyZeroOrOne : Prop :=
  ∀ (ra rb rd : Reg) (s : State),
    EncodedAs (.cmp ra rb rd) (wordNumber 0x0A ra.num rb.num rd.num 0) ∧
    ∃ t, exec (.cmp ra rb rd) s = .next t ∧ WritesResult s t rd (if s.operand ra = s.operand rb then 1 else 0)

/-- R108: at the record level the value counts modulo 2^32; an encodable one is the field as it stands. -/
def Obligations.ConstWritesTheImmediate : Prop :=
  ∀ (value : Nat) (rd : Reg) (s : State),
    (value < 2 ^ 32 → EncodedAs (.const value rd) (wordNumber 0x0B rd.num 0 0 value)) ∧
    ∃ t, exec (.const value rd) s = .next t ∧ WritesResult s t rd (value % 2 ^ 32)

/-- R109: the address is the exact sum; inside 0 .. 65535 the cell is copied, outside MemoryFault is taken. -/
def Obligations.LoadCopiesTheCellOrFaults : Prop :=
  ∀ (rs rd : Reg) (offset : Int) (s : State), -(2 ^ 31) ≤ offset → offset < 2 ^ 31 →
    EncodedAs (.load rs rd offset) (wordNumber 0x0C rs.num rd.num 0 (offsetField offset)) ∧
    (0 ≤ s.effAddr rs offset ∧ s.effAddr rs offset ≤ 65535 →
      ∃ t, exec (.load rs rd offset) s = .next t ∧ WritesResult s t rd (s.cell (s.effAddr rs offset).toNat).toNat) ∧
    (s.effAddr rs offset < 0 ∨ 65535 < s.effAddr rs offset →
      ∃ t, exec (.load rs rd offset) s = .next t ∧
        TakesFault s t .memoryFault (BitVec.ofInt 64 (s.effAddr rs offset)))

/-- R110: the address the meaning forms is the exact sum; inside 0 .. 65535 that one cell takes the value, which is
emitted as well at 65535; outside MemoryFault is taken. -/
def Obligations.StoreWritesTheCellAndEmitsOrFaults : Prop :=
  ∀ (rs rd : Reg) (offset : Int) (s : State), -(2 ^ 31) ≤ offset → offset < 2 ^ 31 →
    EncodedAs (.store rs rd offset) (wordNumber 0x0D rs.num rd.num 0 (offsetField offset)) ∧
    addressOperand rd offset s = s.effAddr rd offset ∧
    (0 ≤ s.effAddr rd offset ∧ s.effAddr rd offset ≤ 65535 →
      ∃ t, exec (.store rs rd offset) s = .next t ∧
        (t.cell (addressOperand rd offset s).toNat).toNat = s.operand rs ∧
        KeepsMemoryBut s t (addressOperand rd offset s) ∧
        t.out = (if s.effAddr rd offset = 65535 then s.out ++ [BitVec.ofNat 32 (s.operand rs)] else s.out) ∧
        KeepsRegs s t ∧ PcAdvances s t ∧ t.status = s.status ∧ KeepsRecord s t) ∧
    (s.effAddr rd offset < 0 ∨ 65535 < s.effAddr rd offset →
      ∃ t, exec (.store rs rd offset) s = .next t ∧
        TakesFault s t .memoryFault (BitVec.ofInt 64 (s.effAddr rd offset)))

/-- R114, with the fault of the next fetch where the target is outside the Program. -/
def Obligations.JmpTransfersToBasePlusOffset : Prop :=
  ∀ (rd : Reg) (offset : Int) (s : State), -(2 ^ 31) ≤ offset → offset < 2 ^ 31 →
    EncodedAs (.jmp rd offset) (wordNumber 0x0E rd.num 0 0 (offsetField offset)) ∧
    ∃ t, exec (.jmp rd offset) s = .next t ∧
      TransfersTo s t (((s.operand rd : Int) + offset) % 2 ^ 32).toNat ∧
      (s.status = .running → s.program.len ≤ (((s.operand rd : Int) + offset) % 2 ^ 32).toNat →
        ∃ u, step t = .next u ∧ TakesFault t u .programBoundsFault (BitVec.ofNat 64 t.pc.toNat))

/-- R115, with the fault of the next fetch where PC is then outside the Program, and the selector checked at decode
whether or not the branch would be taken. -/
def Obligations.BzTransfersExactlyWhenZero : Prop :=
  ∀ (rt : Reg) (offset : Int) (s : State), -(2 ^ 31) ≤ offset → offset < 2 ^ 31 →
    EncodedAs (.bz rt offset) (wordNumber 0x0F rt.num 0 0 (offsetField offset)) ∧
    ∃ t, exec (.bz rt offset) s = .next t ∧
      (s.operand rt = 0 → TransfersTo s t (((s.pc.toNat : Int) + 1 + offset) % 2 ^ 32).toNat) ∧
      (s.operand rt ≠ 0 → TransfersTo s t ((s.pc.toNat + 1) % 2 ^ 32)) ∧
      (s.status = .running → s.program.len ≤ t.pc.toNat →
        ∃ u, step t = .next u ∧ TakesFault t u .programBoundsFault (BitVec.ofNat 64 t.pc.toNat)) ∧
      (∀ sel : Sel, 8 < sel.toNat →
        decode (BitVec.ofNat 64 (wordNumber 0x0F sel.toNat 0 0 (offsetField offset))) = .invalidRegister sel)

/-- R116: HALT sets the status, leaves PC after it, touches nothing else, no step follows it, and reset alone undoes it. -/
def Obligations.HaltStopsWithPcAfterIt : Prop :=
  ∀ s : State,
    EncodedAs .halt (wordNumber 0x10 0 0 0 0) ∧
    ∃ t, exec .halt s = .next t ∧ t.status = .halted ∧ PcAdvances s t ∧
      KeepsRegs s t ∧ KeepsMemory s t ∧ t.out = s.out ∧ KeepsRecord s t ∧
      (∀ u, step t ≠ .next u) ∧ Blocks.edge false t = t ∧ (Blocks.edge true t).status = .running

/-- An instruction whose destination is PC is a transfer to its ordinary result; STORE, which has no destination
register, never is one. This is R117, which the spec marks as its own inference, "derived: from 10_state.md rule R15,
10_state.md rule R21 and 40_execution_cycle.md rule R76". -/
def Obligations.DestinationPcIsATransfer : Prop :=
  ∀ (ra rb : Reg) (s : State),
    (∃ t, exec (.add ra rb .pc) s = .next t ∧ TransfersTo s t ((s.operand ra + s.operand rb) % 2 ^ 32)) ∧
    (∃ t, exec (.sub ra rb .pc) s = .next t ∧ TransfersTo s t ((s.operand ra + 2 ^ 32 - s.operand rb) % 2 ^ 32)) ∧
    (∃ t, exec (.inc .pc) s = .next t ∧ TransfersTo s t ((s.pc.toNat + 2) % 2 ^ 32)) ∧
    (∃ t, exec (.dec .pc) s = .next t ∧ TransfersTo s t s.pc.toNat) ∧
    (∃ t, exec (.and ra rb .pc) s = .next t ∧ TransfersTo s t (s.operand ra &&& s.operand rb)) ∧
    (∃ t, exec (.or ra rb .pc) s = .next t ∧ TransfersTo s t (s.operand ra ||| s.operand rb)) ∧
    (∃ t, exec (.xor ra rb .pc) s = .next t ∧ TransfersTo s t (s.operand ra ^^^ s.operand rb)) ∧
    (∃ t, exec (.shl ra rb .pc) s = .next t ∧
      TransfersTo s t (if 32 ≤ s.operand rb then 0 else (s.operand ra * 2 ^ s.operand rb) % 2 ^ 32)) ∧
    (∃ t, exec (.shr ra rb .pc) s = .next t ∧
      TransfersTo s t (if 32 ≤ s.operand rb then 0 else s.operand ra / 2 ^ s.operand rb)) ∧
    (∃ t, exec (.cmp ra rb .pc) s = .next t ∧ TransfersTo s t (if s.operand ra = s.operand rb then 1 else 0)) ∧
    (∀ value, value < 2 ^ 32 → ∃ t, exec (.const value .pc) s = .next t ∧ TransfersTo s t value) ∧
    (∀ offset : Int, -(2 ^ 31) ≤ offset → offset < 2 ^ 31 →
      (0 ≤ s.effAddr ra offset ∧ s.effAddr ra offset ≤ 65535 →
        ∃ t, exec (.load ra .pc offset) s = .next t ∧ TransfersTo s t (s.cell (s.effAddr ra offset).toNat).toNat) ∧
      (s.effAddr ra offset < 0 ∨ 65535 < s.effAddr ra offset →
        ∃ t, exec (.load ra .pc offset) s = .next t ∧ t.pc = s.pc)) ∧
    (∀ (offset : Int) (t : State), exec (.store ra rb offset) s = .next t → s.status = .running →
      t.status = .running → PcAdvances s t)

/-! ### The step and its faults -/

/-- A step runs the decoded instruction: exec of it at the state before the step, and nothing around it. -/
def Obligations.StepIsExecOfTheDecodedInstruction : Prop :=
  ∀ (s : State) (w : IWord) (i : Instr),
    s.status = .running → s.fetch = some w → decode w = .instr i → step s = exec i s

/-- A placed instruction is the one the very next step runs. How one is placed is the model's choice (log 2, log 11). -/
def Obligations.PlacedInstructionIsTheOneStepRuns : Prop :=
  ∀ (s : State) (i : Instr), s.status = .running → i.wf = true →
    step (s.withFetchWord 64 (encode i).toNat) = exec i (s.withFetchWord 64 (encode i).toNat) ∧
    decodeTableWord 64 (encode i).toNat = some i

/-- A Running machine always steps to a next state: no decoded instruction is refused and no fault stops the model
(a taken fault is a next state: log 5). -/
def Obligations.RunningMachineAlwaysSteps : Prop :=
  ∀ s : State, s.status = .running → ∃ t, step s = .next t

/-- In status Halted or Faulted no step is taken and a clock edge changes nothing. This covers R152, which the spec
marks as its own inference, "derived: from rule R142 and rule R143". -/
def Obligations.StoppedMachineStaysAsItIs : Prop :=
  ∀ s : State, s.status ≠ .running → (∀ t, step s ≠ .next t) ∧ Blocks.edge false s = s

/-- R144: a step takes the first fault that applies, with the record R137 to R140 give it, and none when none does. -/
def Obligations.FirstApplicableFaultIsTaken : Prop :=
  ∀ s : State, s.status = .running → ∃ t, step s = .next t ∧
    (s.program.len ≤ s.pc.toNat → TakesFault s t .programBoundsFault (BitVec.ofNat 64 s.pc.toNat)) ∧
    (∀ w, s.fetch = some w →
      ((∀ row ∈ opcodeTable, row.matchesWord w = false) → TakesFault s t .invalidOpcode w) ∧
      (∀ row ∈ opcodeTable, row.matchesWord w = true →
        (∀ sel, row.firstBadSelector w = some sel →
          TakesFault s t .invalidRegister (BitVec.ofNat 64 sel.toNat)) ∧
        (row.firstBadSelector w = none → ∃ i, decode w = .instr i ∧
          (∀ base offset, Accesses i base offset → (s.effAddr base offset < 0 ∨ 65535 < s.effAddr base offset) →
            TakesFault s t .memoryFault (BitVec.ofInt 64 (s.effAddr base offset))) ∧
          ((∀ base offset, Accesses i base offset → 0 ≤ s.effAddr base offset ∧ s.effAddr base offset ≤ 65535) →
            t.status ≠ .faulted))))

/-- R141: a step that ends Faulted changes the status and the record and nothing else, and records a cause. -/
def Obligations.FaultingStepCommitsNothing : Prop :=
  ∀ s t : State, step s = .next t → t.status = .faulted →
    t.faultCause ≠ .noFault ∧ TakesFault s t t.faultCause t.faultInfo

/-- R23, R24: Halted is entered exactly by executing HALT; the fault record is written only by a step that faults. -/
def Obligations.OnlyHaltHaltsAndOnlyFaultsRecord : Prop :=
  ∀ s t : State, step s = .next t →
    (t.status = .halted ↔ Executes s .halt) ∧
    (t.status ≠ .faulted → t.faultCause = s.faultCause ∧ t.faultPc = s.faultPc ∧ t.faultInfo = s.faultInfo)

/-- A run from any state is never refused, and where it stops the machine was Halted or Faulted. The named faults of a
stopped machine are the model's choice (log 4). -/
def Obligations.RunsEndOnlyHaltedOrFaulted : Prop :=
  ∀ (n : Nat) (s : State),
    (∃ t, Host.Core.run Sys2Proof.core n s = .next t) ∨
    (∃ m t, m < n ∧ Host.Core.run Sys2Proof.core m s = .next t ∧
      ((t.status = .halted ∧ Host.Core.run Sys2Proof.core n s = .fault .halted) ∨
       (t.status = .faulted ∧ Host.Core.run Sys2Proof.core n s = .fault (.faulted t.faultCause))))

/-! ### Whole-machine frames -/

/-- R25: no general register changes but the destination of the executed instruction. -/
def Obligations.OnlyTheDestinationRegisterChanges : Prop :=
  ∀ (s t : State) (r : Reg), step s = .next t → r ≠ .pc → t.getReg r ≠ s.getReg r →
    ∃ i, Executes s i ∧ destination i = some r

/-- PC advances by one unless the step faults or the executed instruction writes PC. -/
def Obligations.PcAdvancesUnlessWrittenOrFaulted : Prop :=
  ∀ s t : State, step s = .next t →
    (t.status = .faulted → t.pc = s.pc) ∧
    (∀ i, Executes s i → t.status ≠ .faulted → destination i ≠ some .pc → isTransfer i = false → PcAdvances s t)

/-- A cell changes only by an executed STORE to it, to the value of the stored register. -/
def Obligations.CellsChangeOnlyByStores : Prop :=
  ∀ (s t : State) (a : Nat), step s = .next t → t.cell a ≠ s.cell a →
    ∃ rs rd offset, Executes s (.store rs rd offset) ∧ s.effAddr rd offset = a ∧ a ≤ 65535 ∧
      (t.cell a).toNat = s.operand rs

/-- The output sequence only grows, by one value at most, and only by an executed STORE to 65535. -/
def Obligations.OutputGrowsOnlyByPortStores : Prop :=
  ∀ s t : State, step s = .next t →
    (t.out = s.out ∧ ∀ rs rd offset, Executes s (.store rs rd offset) → s.effAddr rd offset ≠ 65535) ∨
    (∃ rs rd offset, Executes s (.store rs rd offset) ∧ s.effAddr rd offset = 65535 ∧
      t.out = s.out ++ [BitVec.ofNat 32 (s.operand rs)])

/-- No run changes the Program. -/
def Obligations.ProgramIsImmutable : Prop :=
  ∀ (n : Nat) (s t : State), Host.Core.run Sys2Proof.core n s = .next t → t.program = s.program

/-- No instruction reads the output sequence: with another one in its place the machine steps alike, and emits the
same values. -/
def Obligations.OutputIsNotReadable : Prop :=
  ∀ (s t : State) (o : List Word), step s = .next t →
    ∃ e, t.out = s.out ++ e ∧ step { s with out := o } = .next { t with out := o ++ e }

/-- No instruction reads the fault record: with another one in its place the machine steps alike. -/
def Obligations.FaultRecordIsNotReadable : Prop :=
  ∀ (s t : State) (c : FaultCause) (p : Word) (x : BitVec 64), step s = .next t →
    ∃ c' p' x', step { s with faultCause := c, faultPc := p, faultInfo := x } =
      .next { t with faultCause := c', faultPc := p', faultInfo := x' }

/-! ### Laws across steps -/

/-- A LOAD of the address just stored to reads the stored value. -/
def Obligations.StoreThenLoadReadsTheValue : Prop :=
  ∀ (rs rd base dest : Reg) (offset offset' : Int) (s t : State),
    exec (.store rs rd offset) s = .next t → 0 ≤ s.effAddr rd offset → s.effAddr rd offset ≤ 65535 →
    -(2 ^ 31) ≤ offset' → offset' < 2 ^ 31 → t.effAddr base offset' = s.effAddr rd offset →
    ∃ u, exec (.load base dest offset') t = .next u ∧ WritesResult t u dest (s.operand rs)

/-- In a state of the invariant, a LOAD of the port reads the value most recently emitted, or 0, and emits nothing.
This is R40, which the spec marks as its own inference, "derived: from rule R37 and rule R39". -/
def Obligations.PortLoadReadsTheLastOutput : Prop :=
  ∀ (rs rd : Reg) (offset : Int) (s : State), s.Inv → -(2 ^ 31) ≤ offset → offset < 2 ^ 31 →
    s.effAddr rs offset = 65535 →
    ∃ t, exec (.load rs rd offset) s = .next t ∧ WritesResult s t rd (s.out.getLastD 0).toNat

/-- SUB undoes ADD of the same register, and DEC undoes INC. This is R98(f), which the spec marks as its own inference,
"derived: from rule R94 to rule R97 and 30_encoding.md rule R55". Destinations R0 and PC, and Rb being PC or Rd, are left
out because the law fails there. -/
def Obligations.SubUndoesAddAndDecUndoesInc : Prop :=
  (∀ (ra rb rd : Reg) (s t u : State), rd ≠ .r0 → rd ≠ .pc → rb ≠ .pc → rb ≠ rd →
    exec (.add ra rb rd) s = .next t → exec (.sub rd rb rd) t = .next u → (u.getReg rd).toNat = s.operand ra) ∧
  (∀ (r : Reg) (s t u : State), r ≠ .pc →
    exec (.inc r) s = .next t → exec (.dec r) t = .next u → u.getReg r = s.getReg r)

/-- These steps lead back to the state they start from. DEC PC and BZ R0, -1 are examples of R84; JMP PC, -1 is a corner
case of R114 ("jumps to itself forever"). -/
def Obligations.SelfLoopsChangeNothing : Prop :=
  ∀ s : State, exec (.dec .pc) s = .next s ∧ exec (.jmp .pc (-1)) s = .next s ∧ exec (.bz .r0 (-1)) s = .next s

/-- R49: along any run every cell holds the value of the latest store to it, or what it held at the start, and the
output is the values stored to 65535 in execution order. -/
def Obligations.MemoryAndOutputFollowTheStores : Prop :=
  ∀ (n : Nat) (s t : State), Host.Core.run Sys2Proof.core n s = .next t →
    (∀ a, t.cell a = (latestStore a (storeEvents n s)).getD (s.cell a)) ∧
    t.out = s.out ++ portValues (storeEvents n s)

/-! ### Invariant and reset -/

/-- Every step keeps the invariant. Its clauses on the canonical form of memory and Program are the model's choice
(log 1, log 2, log 3); the bound of PROG_LEN is R7's; the record and port clauses are R24, R143 and R39, R40. -/
def Obligations.StepKeepsTheInvariant : Prop :=
  ∀ s t : State, s.Inv → step s = .next t → t.Inv

/-- The reset state, and every launch state with a Program in its form, meets the invariant. The empty Program of the
reset state and the canonical form are the model's choices (log 1, log 2). -/
def Obligations.LaunchStatesMeetTheInvariant : Prop :=
  State.reset.Inv ∧ ∀ p : Program, p.wf = true → (State.launch p).Inv

/-- R154: what reset leaves, and from any state what the reset input leaves (R122, R158). -/
def Obligations.ResetLeavesTheStatedValues : Prop :=
  ∀ s : State, ∀ t ∈ [State.reset, Blocks.edge true s],
    (∀ r : Reg, r ≠ .r7 → t.getReg r = 0) ∧ t.r7 = 65534 ∧ t.pc = 0 ∧ (∀ a, t.cell a = 0) ∧
    t.status = .running ∧ t.out = [] ∧ t.faultCause = .noFault ∧ t.faultPc = 0 ∧ t.faultInfo = 0

/-- R16 at the register file: R0 reads 0 in every state, and a write to it changes nothing. -/
def Obligations.R0ReadsZeroAndDropsWrites : Prop :=
  ∀ (s : State) (v : Word), s.getReg .r0 = 0 ∧ s.setReg .r0 v = s ∧ s.operand .r0 = 0

/-! ### The hardware blocks -/

/-- R130: the 34-bit adder of memory_interface holds the exact address sum of R34. -/
def Obligations.AddressAdderIsExact : Prop :=
  ∀ base imm : Word, (Blocks.ea base imm).toInt = (base.toNat : Int) + imm.toInt

/-- R123: the seven connected blocks, clocked once without reset, do exactly what `step` does: its next state where it
has one, and nothing where the machine has stopped. -/
def Obligations.ConnectedBlocksRefineTheStep : Prop :=
  ∀ s : State, s.program.len ≤ 2 ^ 32 →
    (∀ t, step s = .next t → Blocks.edge false s = t) ∧
    ((∀ t, step s ≠ .next t) → Blocks.edge false s = s)

/-- R133: one pulse of `io_out_valid` is one element of `out`, with the value on `io_out_data`. -/
def Obligations.PortPulsesAreTheOutput : Prop :=
  ∀ s t : State, s.program.len ≤ 2 ^ 32 → step s = .next t →
    t.out = s.out ++ (if (Blocks.topPorts false s).ioOutValid then [(Blocks.topPorts false s).ioOutData] else [])

/-- From any state an edge with reset leads to the launch state of the same Program. That the Program stands in State and
reset keeps it is the model's choice (log 2, log 9), which R124 and R163 support: the program store is outside the core. -/
def Obligations.ResetEdgeLaunchesTheSameProgram : Prop :=
  ∀ s : State, Blocks.edge true s = State.launch s.program ∧ (Blocks.edge true s).program = s.program
end

