-- ==== Sys2Proof/Laws/State.lean ====
section
/-! SUPPORT. One lemma per field per update of State, and the register file's laws: later proofs unfold no record update. -/

namespace Sys2Proof.Machine

/-! ### `State.setPc` -/

@[simp] theorem setPc_r1 (s : State) (t : Word) : (s.setPc t).r1 = s.r1 := rfl
@[simp] theorem setPc_r2 (s : State) (t : Word) : (s.setPc t).r2 = s.r2 := rfl
@[simp] theorem setPc_r3 (s : State) (t : Word) : (s.setPc t).r3 = s.r3 := rfl
@[simp] theorem setPc_r4 (s : State) (t : Word) : (s.setPc t).r4 = s.r4 := rfl
@[simp] theorem setPc_r5 (s : State) (t : Word) : (s.setPc t).r5 = s.r5 := rfl
@[simp] theorem setPc_r6 (s : State) (t : Word) : (s.setPc t).r6 = s.r6 := rfl
@[simp] theorem setPc_r7 (s : State) (t : Word) : (s.setPc t).r7 = s.r7 := rfl
@[simp] theorem setPc_pc (s : State) (t : Word) : (s.setPc t).pc = t := rfl
@[simp] theorem setPc_mem (s : State) (t : Word) : (s.setPc t).mem = s.mem := rfl
@[simp] theorem setPc_status (s : State) (t : Word) : (s.setPc t).status = s.status := rfl
@[simp] theorem setPc_faultCause (s : State) (t : Word) : (s.setPc t).faultCause = s.faultCause := rfl
@[simp] theorem setPc_faultPc (s : State) (t : Word) : (s.setPc t).faultPc = s.faultPc := rfl
@[simp] theorem setPc_faultInfo (s : State) (t : Word) : (s.setPc t).faultInfo = s.faultInfo := rfl
@[simp] theorem setPc_out (s : State) (t : Word) : (s.setPc t).out = s.out := rfl
@[simp] theorem setPc_program (s : State) (t : Word) : (s.setPc t).program = s.program := rfl

/-! ### `State.preIncrement` -/

@[simp] theorem preIncrement_r1 (s : State) : s.preIncrement.r1 = s.r1 := rfl
@[simp] theorem preIncrement_r2 (s : State) : s.preIncrement.r2 = s.r2 := rfl
@[simp] theorem preIncrement_r3 (s : State) : s.preIncrement.r3 = s.r3 := rfl
@[simp] theorem preIncrement_r4 (s : State) : s.preIncrement.r4 = s.r4 := rfl
@[simp] theorem preIncrement_r5 (s : State) : s.preIncrement.r5 = s.r5 := rfl
@[simp] theorem preIncrement_r6 (s : State) : s.preIncrement.r6 = s.r6 := rfl
@[simp] theorem preIncrement_r7 (s : State) : s.preIncrement.r7 = s.r7 := rfl
@[simp] theorem preIncrement_pc (s : State) : s.preIncrement.pc = s.pc + 1 := rfl
@[simp] theorem preIncrement_mem (s : State) : s.preIncrement.mem = s.mem := rfl
@[simp] theorem preIncrement_status (s : State) : s.preIncrement.status = s.status := rfl
@[simp] theorem preIncrement_faultCause (s : State) : s.preIncrement.faultCause = s.faultCause := rfl
@[simp] theorem preIncrement_faultPc (s : State) : s.preIncrement.faultPc = s.faultPc := rfl
@[simp] theorem preIncrement_faultInfo (s : State) : s.preIncrement.faultInfo = s.faultInfo := rfl
@[simp] theorem preIncrement_out (s : State) : s.preIncrement.out = s.out := rfl
@[simp] theorem preIncrement_program (s : State) : s.preIncrement.program = s.program := rfl

/-! ### `State.emit` -/

@[simp] theorem emit_r1 (s : State) (v : Word) : (s.emit v).r1 = s.r1 := rfl
@[simp] theorem emit_r2 (s : State) (v : Word) : (s.emit v).r2 = s.r2 := rfl
@[simp] theorem emit_r3 (s : State) (v : Word) : (s.emit v).r3 = s.r3 := rfl
@[simp] theorem emit_r4 (s : State) (v : Word) : (s.emit v).r4 = s.r4 := rfl
@[simp] theorem emit_r5 (s : State) (v : Word) : (s.emit v).r5 = s.r5 := rfl
@[simp] theorem emit_r6 (s : State) (v : Word) : (s.emit v).r6 = s.r6 := rfl
@[simp] theorem emit_r7 (s : State) (v : Word) : (s.emit v).r7 = s.r7 := rfl
@[simp] theorem emit_pc (s : State) (v : Word) : (s.emit v).pc = s.pc := rfl
@[simp] theorem emit_mem (s : State) (v : Word) : (s.emit v).mem = s.mem := rfl
@[simp] theorem emit_status (s : State) (v : Word) : (s.emit v).status = s.status := rfl
@[simp] theorem emit_faultCause (s : State) (v : Word) : (s.emit v).faultCause = s.faultCause := rfl
@[simp] theorem emit_faultPc (s : State) (v : Word) : (s.emit v).faultPc = s.faultPc := rfl
@[simp] theorem emit_faultInfo (s : State) (v : Word) : (s.emit v).faultInfo = s.faultInfo := rfl
@[simp] theorem emit_out (s : State) (v : Word) : (s.emit v).out = s.out ++ [v] := rfl
@[simp] theorem emit_program (s : State) (v : Word) : (s.emit v).program = s.program := rfl

/-! ### `State.setCell` -/

@[simp] theorem setCell_r1 (s : State) (a : Nat) (v : Word) : (s.setCell a v).r1 = s.r1 := rfl
@[simp] theorem setCell_r2 (s : State) (a : Nat) (v : Word) : (s.setCell a v).r2 = s.r2 := rfl
@[simp] theorem setCell_r3 (s : State) (a : Nat) (v : Word) : (s.setCell a v).r3 = s.r3 := rfl
@[simp] theorem setCell_r4 (s : State) (a : Nat) (v : Word) : (s.setCell a v).r4 = s.r4 := rfl
@[simp] theorem setCell_r5 (s : State) (a : Nat) (v : Word) : (s.setCell a v).r5 = s.r5 := rfl
@[simp] theorem setCell_r6 (s : State) (a : Nat) (v : Word) : (s.setCell a v).r6 = s.r6 := rfl
@[simp] theorem setCell_r7 (s : State) (a : Nat) (v : Word) : (s.setCell a v).r7 = s.r7 := rfl
@[simp] theorem setCell_pc (s : State) (a : Nat) (v : Word) : (s.setCell a v).pc = s.pc := rfl
@[simp] theorem setCell_mem (s : State) (a : Nat) (v : Word) : (s.setCell a v).mem = cellsWrite s.mem a v := rfl
@[simp] theorem setCell_status (s : State) (a : Nat) (v : Word) : (s.setCell a v).status = s.status := rfl
@[simp] theorem setCell_faultCause (s : State) (a : Nat) (v : Word) : (s.setCell a v).faultCause = s.faultCause := rfl
@[simp] theorem setCell_faultPc (s : State) (a : Nat) (v : Word) : (s.setCell a v).faultPc = s.faultPc := rfl
@[simp] theorem setCell_faultInfo (s : State) (a : Nat) (v : Word) : (s.setCell a v).faultInfo = s.faultInfo := rfl
@[simp] theorem setCell_out (s : State) (a : Nat) (v : Word) : (s.setCell a v).out = s.out := rfl
@[simp] theorem setCell_program (s : State) (a : Nat) (v : Word) : (s.setCell a v).program = s.program := rfl

/-! ### `State.halt` -/

@[simp] theorem halt_r1 (s : State) : s.halt.r1 = s.r1 := rfl
@[simp] theorem halt_r2 (s : State) : s.halt.r2 = s.r2 := rfl
@[simp] theorem halt_r3 (s : State) : s.halt.r3 = s.r3 := rfl
@[simp] theorem halt_r4 (s : State) : s.halt.r4 = s.r4 := rfl
@[simp] theorem halt_r5 (s : State) : s.halt.r5 = s.r5 := rfl
@[simp] theorem halt_r6 (s : State) : s.halt.r6 = s.r6 := rfl
@[simp] theorem halt_r7 (s : State) : s.halt.r7 = s.r7 := rfl
@[simp] theorem halt_pc (s : State) : s.halt.pc = s.pc := rfl
@[simp] theorem halt_mem (s : State) : s.halt.mem = s.mem := rfl
@[simp] theorem halt_status (s : State) : s.halt.status = Status.halted := rfl
@[simp] theorem halt_faultCause (s : State) : s.halt.faultCause = s.faultCause := rfl
@[simp] theorem halt_faultPc (s : State) : s.halt.faultPc = s.faultPc := rfl
@[simp] theorem halt_faultInfo (s : State) : s.halt.faultInfo = s.faultInfo := rfl
@[simp] theorem halt_out (s : State) : s.halt.out = s.out := rfl
@[simp] theorem halt_program (s : State) : s.halt.program = s.program := rfl

/-! ### `State.takeFault` -/

@[simp] theorem takeFault_r1 (s : State) (c : FaultCause) (info : BitVec 64) : (s.takeFault c info).r1 = s.r1 := rfl
@[simp] theorem takeFault_r2 (s : State) (c : FaultCause) (info : BitVec 64) : (s.takeFault c info).r2 = s.r2 := rfl
@[simp] theorem takeFault_r3 (s : State) (c : FaultCause) (info : BitVec 64) : (s.takeFault c info).r3 = s.r3 := rfl
@[simp] theorem takeFault_r4 (s : State) (c : FaultCause) (info : BitVec 64) : (s.takeFault c info).r4 = s.r4 := rfl
@[simp] theorem takeFault_r5 (s : State) (c : FaultCause) (info : BitVec 64) : (s.takeFault c info).r5 = s.r5 := rfl
@[simp] theorem takeFault_r6 (s : State) (c : FaultCause) (info : BitVec 64) : (s.takeFault c info).r6 = s.r6 := rfl
@[simp] theorem takeFault_r7 (s : State) (c : FaultCause) (info : BitVec 64) : (s.takeFault c info).r7 = s.r7 := rfl
@[simp] theorem takeFault_pc (s : State) (c : FaultCause) (info : BitVec 64) : (s.takeFault c info).pc = s.pc := rfl
@[simp] theorem takeFault_mem (s : State) (c : FaultCause) (info : BitVec 64) : (s.takeFault c info).mem = s.mem := rfl
@[simp] theorem takeFault_status (s : State) (c : FaultCause) (info : BitVec 64) : (s.takeFault c info).status = Status.faulted := rfl
@[simp] theorem takeFault_faultCause (s : State) (c : FaultCause) (info : BitVec 64) : (s.takeFault c info).faultCause = c := rfl
@[simp] theorem takeFault_faultPc (s : State) (c : FaultCause) (info : BitVec 64) : (s.takeFault c info).faultPc = s.pc := rfl
@[simp] theorem takeFault_faultInfo (s : State) (c : FaultCause) (info : BitVec 64) : (s.takeFault c info).faultInfo = info := rfl
@[simp] theorem takeFault_out (s : State) (c : FaultCause) (info : BitVec 64) : (s.takeFault c info).out = s.out := rfl
@[simp] theorem takeFault_program (s : State) (c : FaultCause) (info : BitVec 64) : (s.takeFault c info).program = s.program := rfl

/-! ### `State.placeAtPc` -/

@[simp] theorem placeAtPc_r1 (s : State) (w : IWord) : (s.placeAtPc w).r1 = s.r1 := rfl
@[simp] theorem placeAtPc_r2 (s : State) (w : IWord) : (s.placeAtPc w).r2 = s.r2 := rfl
@[simp] theorem placeAtPc_r3 (s : State) (w : IWord) : (s.placeAtPc w).r3 = s.r3 := rfl
@[simp] theorem placeAtPc_r4 (s : State) (w : IWord) : (s.placeAtPc w).r4 = s.r4 := rfl
@[simp] theorem placeAtPc_r5 (s : State) (w : IWord) : (s.placeAtPc w).r5 = s.r5 := rfl
@[simp] theorem placeAtPc_r6 (s : State) (w : IWord) : (s.placeAtPc w).r6 = s.r6 := rfl
@[simp] theorem placeAtPc_r7 (s : State) (w : IWord) : (s.placeAtPc w).r7 = s.r7 := rfl
@[simp] theorem placeAtPc_pc (s : State) (w : IWord) : (s.placeAtPc w).pc = s.pc := rfl
@[simp] theorem placeAtPc_mem (s : State) (w : IWord) : (s.placeAtPc w).mem = s.mem := rfl
@[simp] theorem placeAtPc_status (s : State) (w : IWord) : (s.placeAtPc w).status = s.status := rfl
@[simp] theorem placeAtPc_faultCause (s : State) (w : IWord) : (s.placeAtPc w).faultCause = s.faultCause := rfl
@[simp] theorem placeAtPc_faultPc (s : State) (w : IWord) : (s.placeAtPc w).faultPc = s.faultPc := rfl
@[simp] theorem placeAtPc_faultInfo (s : State) (w : IWord) : (s.placeAtPc w).faultInfo = s.faultInfo := rfl
@[simp] theorem placeAtPc_out (s : State) (w : IWord) : (s.placeAtPc w).out = s.out := rfl
@[simp] theorem placeAtPc_program (s : State) (w : IWord) : (s.placeAtPc w).program = s.program.place s.pc.toNat w := rfl

/-! ### `State.setReg` and `State.getReg` -/

@[simp] theorem setReg_mem (s : State) (r : Reg) (v : Word) : (s.setReg r v).mem = s.mem := by cases r <;> rfl
@[simp] theorem setReg_status (s : State) (r : Reg) (v : Word) : (s.setReg r v).status = s.status := by cases r <;> rfl
@[simp] theorem setReg_faultCause (s : State) (r : Reg) (v : Word) : (s.setReg r v).faultCause = s.faultCause := by cases r <;> rfl
@[simp] theorem setReg_faultPc (s : State) (r : Reg) (v : Word) : (s.setReg r v).faultPc = s.faultPc := by cases r <;> rfl
@[simp] theorem setReg_faultInfo (s : State) (r : Reg) (v : Word) : (s.setReg r v).faultInfo = s.faultInfo := by cases r <;> rfl
@[simp] theorem setReg_out (s : State) (r : Reg) (v : Word) : (s.setReg r v).out = s.out := by cases r <;> rfl
@[simp] theorem setReg_program (s : State) (r : Reg) (v : Word) : (s.setReg r v).program = s.program := by cases r <;> rfl

/-- A write to R0 is dropped (R16). -/
@[simp] theorem setReg_r0 (s : State) (v : Word) : s.setReg .r0 v = s := rfl

/-- R0 reads 0 in every state (R16). -/
@[simp] theorem getReg_r0 (s : State) : s.getReg .r0 = 0 := rfl

@[simp] theorem getReg_pc (s : State) : s.getReg .pc = s.pc := rfl

@[simp] theorem setReg_pc (s : State) (v : Word) : s.setReg .pc v = s.setPc v := rfl

/-- A written register other than R0 holds the value. -/
theorem getReg_setReg_same {r : Reg} (hr : r ≠ .r0) (s : State) (v : Word) : (s.setReg r v).getReg r = v := by
  cases r <;> first | rfl | exact absurd rfl hr

/-- Writing one register leaves every other alone. -/
theorem getReg_setReg_ne {r q : Reg} (h : q ≠ r) (s : State) (v : Word) : (s.setReg r v).getReg q = s.getReg q := by
  cases r <;> cases q <;> first | rfl | exact absurd rfl h

/-- A write to a general register leaves PC alone. -/
theorem setReg_keeps_pc {r : Reg} (hr : r ≠ .pc) (s : State) (v : Word) : (s.setReg r v).pc = s.pc := by
  cases r <;> first | rfl | exact absurd rfl hr

theorem getReg_setPc {r : Reg} (hr : r ≠ .pc) (s : State) (t : Word) : (s.setPc t).getReg r = s.getReg r := by
  cases r <;> first | rfl | exact absurd rfl hr

theorem getReg_preIncrement {r : Reg} (hr : r ≠ .pc) (s : State) : s.preIncrement.getReg r = s.getReg r :=
  getReg_setPc hr s _

@[simp] theorem getReg_emit (s : State) (v : Word) (r : Reg) : (s.emit v).getReg r = s.getReg r := by cases r <;> rfl

@[simp] theorem getReg_setCell (s : State) (a : Nat) (v : Word) (r : Reg) : (s.setCell a v).getReg r = s.getReg r := by
  cases r <;> rfl

@[simp] theorem getReg_halt (s : State) (r : Reg) : s.halt.getReg r = s.getReg r := by cases r <;> rfl

@[simp] theorem getReg_takeFault (s : State) (c : FaultCause) (info : BitVec 64) (r : Reg) :
    (s.takeFault c info).getReg r = s.getReg r := by cases r <;> rfl

/-! ### Cells of the updated states -/

@[simp] theorem cell_setReg (s : State) (r : Reg) (v : Word) (a : Nat) : (s.setReg r v).cell a = s.cell a := by
  simp [State.cell]

@[simp] theorem cell_setPc (s : State) (t : Word) (a : Nat) : (s.setPc t).cell a = s.cell a := rfl

@[simp] theorem cell_preIncrement (s : State) (a : Nat) : s.preIncrement.cell a = s.cell a := rfl

@[simp] theorem cell_emit (s : State) (v : Word) (a : Nat) : (s.emit v).cell a = s.cell a := rfl

@[simp] theorem cell_halt (s : State) (a : Nat) : s.halt.cell a = s.cell a := rfl

@[simp] theorem cell_takeFault (s : State) (c : FaultCause) (info : BitVec 64) (a : Nat) :
    (s.takeFault c info).cell a = s.cell a := rfl

end Sys2Proof.Machine
end

