-- ==== Sys2Proof/Laws/Cells.lean ====
section
/-! SUPPORT. The laws of sparse cells: a read after a write, the canonical form kept by every operation, and equal
contents in canonical form being equal data. -/

namespace Sys2Proof.Machine

variable {w : Nat}

@[simp] theorem cellsRead_nil (a : Nat) : cellsRead ([] : Cells w) a = 0 := rfl

theorem cellsRead_cons (k : Nat) (v : BitVec w) (rest : Cells w) (a : Nat) :
    cellsRead ((k, v) :: rest) a = if k = a then v else cellsRead rest a := rfl

/-- An erased cell reads 0, every other as before. -/
theorem cellsRead_erase (c : Cells w) (a b : Nat) :
    cellsRead (cellsErase c a) b = if b = a then 0 else cellsRead c b := by
  induction c with
  | nil => simp [cellsErase]
  | cons e rest ih =>
    obtain ⟨k, v⟩ := e
    by_cases hka : k = a
    · simp only [cellsErase, hka, if_true, ih, cellsRead_cons]
      split
      · rfl
      · rw [if_neg (by omega)]
    · simp only [cellsErase, hka, if_false, cellsRead_cons, ih]
      by_cases hkb : k = b
      · subst hkb
        simp [hka]
      · simp [hkb]

/-- Insertion sets one cell of a list in which it is not listed. -/
theorem cellsRead_insert (c : Cells w) (a : Nat) (v : BitVec w) (hfree : ∀ e ∈ c, e.1 ≠ a) (b : Nat) :
    cellsRead (cellsInsert c a v) b = if b = a then v else cellsRead c b := by
  induction c with
  | nil => simp [cellsInsert, cellsRead_cons, eq_comm]
  | cons e rest ih =>
    obtain ⟨k, x⟩ := e
    have hk : k ≠ a := hfree (k, x) (by simp)
    have ih' := ih fun e he => hfree e (by simp [he])
    by_cases hlt : a < k
    · simp only [cellsInsert, hlt, if_true, cellsRead_cons, eq_comm]
    · simp only [cellsInsert, hlt, if_false, cellsRead_cons, ih']
      by_cases hkb : k = b
      · subst hkb
        simp [hk]
      · simp [hkb]

theorem cellsErase_free (c : Cells w) (a : Nat) : ∀ e ∈ cellsErase c a, e.1 ≠ a := by
  induction c with
  | nil => simp [cellsErase]
  | cons e rest ih =>
    obtain ⟨k, v⟩ := e
    by_cases hka : k = a
    · simpa [cellsErase, hka] using ih
    · intro e he
      simp only [cellsErase, hka, if_false, List.mem_cons] at he
      rcases he with rfl | he
      · exact hka
      · exact ih e he

/-- THE memory law: after a write the cell reads the value and every other reads as before. -/
theorem cellsRead_write (c : Cells w) (a : Nat) (v : BitVec w) (b : Nat) :
    cellsRead (cellsWrite c a v) b = if b = a then v else cellsRead c b := by
  unfold cellsWrite
  split
  · next hv => rw [cellsRead_erase, hv]
  · rw [cellsRead_insert _ _ _ (cellsErase_free c a), cellsRead_erase]
    split <;> simp_all

@[simp] theorem cellsRead_write_same (c : Cells w) (a : Nat) (v : BitVec w) : cellsRead (cellsWrite c a v) a = v := by
  simp [cellsRead_write]

theorem cellsRead_write_ne {a b : Nat} (h : b ≠ a) (c : Cells w) (v : BitVec w) :
    cellsRead (cellsWrite c a v) b = cellsRead c b := by
  simp [cellsRead_write, h]

/-! ### The canonical form -/

theorem cellsWfFrom_cons {bound lo k : Nat} {v : BitVec w} {rest : Cells w} :
    cellsWfFrom bound lo ((k, v) :: rest) = true ↔
      lo ≤ k ∧ k < bound ∧ v ≠ 0 ∧ cellsWfFrom bound (k + 1) rest = true := by
  simp [cellsWfFrom, and_assoc]

/-- The canonical form from a number is one from any smaller number and below any larger bound. -/
theorem cellsWfFrom_mono {bound bound' lo lo' : Nat} {c : Cells w} (hb : bound ≤ bound') (hlo : lo' ≤ lo)
    (h : cellsWfFrom bound lo c = true) : cellsWfFrom bound' lo' c = true := by
  induction c generalizing lo lo' with
  | nil => rfl
  | cons e rest ih =>
    obtain ⟨k, v⟩ := e
    rw [cellsWfFrom_cons] at h ⊢
    exact ⟨by omega, by omega, h.2.2.1, ih (le_refl _) h.2.2.2⟩

theorem cellsErase_wf {bound lo : Nat} {c : Cells w} (a : Nat) (h : cellsWfFrom bound lo c = true) :
    cellsWfFrom bound lo (cellsErase c a) = true := by
  induction c generalizing lo with
  | nil => rfl
  | cons e rest ih =>
    obtain ⟨k, v⟩ := e
    rw [cellsWfFrom_cons] at h
    by_cases hka : k = a
    · simp only [cellsErase, hka, if_true]
      exact cellsWfFrom_mono (le_refl _) (by omega) (ih h.2.2.2)
    · simp only [cellsErase, hka, if_false]
      exact cellsWfFrom_cons.mpr ⟨h.1, h.2.1, h.2.2.1, ih h.2.2.2⟩

theorem cellsInsert_wf {bound lo a : Nat} {v : BitVec w} {c : Cells w} (hv : v ≠ 0) (ha : a < bound) (hlo : lo ≤ a)
    (hfree : ∀ e ∈ c, e.1 ≠ a) (h : cellsWfFrom bound lo c = true) : cellsWfFrom bound lo (cellsInsert c a v) = true := by
  induction c generalizing lo with
  | nil => exact cellsWfFrom_cons.mpr ⟨hlo, ha, hv, rfl⟩
  | cons e rest ih =>
    obtain ⟨k, x⟩ := e
    have hk : k ≠ a := hfree (k, x) (by simp)
    rw [cellsWfFrom_cons] at h
    by_cases hlt : a < k
    · simp only [cellsInsert, hlt, if_true]
      exact cellsWfFrom_cons.mpr ⟨hlo, ha, hv, cellsWfFrom_cons.mpr ⟨hlt, h.2.1, h.2.2.1, h.2.2.2⟩⟩
    · simp only [cellsInsert, hlt, if_false]
      exact cellsWfFrom_cons.mpr
        ⟨h.1, h.2.1, h.2.2.1, ih (by omega) (fun e he => hfree e (by simp [he])) h.2.2.2⟩

/-- Every write below the bound keeps the canonical form. -/
theorem cellsWrite_wf {bound a : Nat} {c : Cells w} (ha : a < bound) (v : BitVec w) (h : cellsWf bound c = true) :
    cellsWf bound (cellsWrite c a v) = true := by
  unfold cellsWf cellsWrite at *
  split
  · exact cellsErase_wf a h
  · next hv => exact cellsInsert_wf hv ha (Nat.zero_le _) (cellsErase_free c a) (cellsErase_wf a h)

/-- Below the first number of a canonical list everything reads 0. -/
theorem cellsRead_below {bound lo a : Nat} {c : Cells w} (h : cellsWfFrom bound lo c = true) (ha : a < lo) :
    cellsRead c a = 0 := by
  induction c generalizing lo with
  | nil => rfl
  | cons e rest ih =>
    obtain ⟨k, v⟩ := e
    rw [cellsWfFrom_cons] at h
    rw [cellsRead_cons, if_neg (by omega)]
    exact ih h.2.2.2 (by omega)

/-- Equal contents in canonical form are equal data. -/
theorem cells_ext_from {bound lo : Nat} {c d : Cells w} (hc : cellsWfFrom bound lo c = true)
    (hd : cellsWfFrom bound lo d = true) (h : ∀ a, cellsRead c a = cellsRead d a) : c = d := by
  induction c generalizing lo d with
  | nil =>
    cases d with
    | nil => rfl
    | cons e rest =>
      obtain ⟨k, v⟩ := e
      have := h k
      rw [cellsRead_cons, if_pos rfl] at this
      exact absurd this.symm (cellsWfFrom_cons.mp hd).2.2.1
  | cons e rest ih =>
    obtain ⟨k, v⟩ := e
    have hc' := cellsWfFrom_cons.mp hc
    cases d with
    | nil =>
      have := h k
      rw [cellsRead_cons, if_pos rfl] at this
      exact absurd this hc'.2.2.1
    | cons e' rest' =>
      obtain ⟨k', v'⟩ := e'
      have hd' := cellsWfFrom_cons.mp hd
      have hkk : k = k' := by
        rcases Nat.lt_trichotomy k k' with hlt | heq | hgt
        · have := h k
          rw [cellsRead_cons, if_pos rfl, cellsRead_cons, if_neg (by omega),
            cellsRead_below hd'.2.2.2 (by omega)] at this
          exact absurd this hc'.2.2.1
        · exact heq
        · have := h k'
          rw [cellsRead_cons, if_neg (by omega), cellsRead_cons, if_pos rfl,
            cellsRead_below hc'.2.2.2 (by omega)] at this
          exact absurd this.symm hd'.2.2.1
      subst hkk
      have hv : v = v' := by simpa [cellsRead_cons] using h k
      subst hv
      have hrest : ∀ a, cellsRead rest a = cellsRead rest' a := by
        intro a
        by_cases hka : k = a
        · subst hka
          rw [cellsRead_below hc'.2.2.2 (by omega), cellsRead_below hd'.2.2.2 (by omega)]
        · simpa [cellsRead_cons, hka] using h a
      rw [ih hc'.2.2.2 hd'.2.2.2 hrest]

/-! ### Memory and Program -/

theorem Memory.write_wf {m : Cells 32} (h : Memory.wf m = true) {a : Nat} (ha : a < Config.memCells) (v : Word) :
    Memory.wf (cellsWrite m a v) = true :=
  cellsWrite_wf ha v h

theorem Memory.reset_wf : Memory.wf State.reset.mem = true := rfl

/-- Placing a word at an index a PC can hold keeps a Program in its form. -/
theorem Program.place_wf {p : Program} (h : p.wf = true) {i : Nat} (hi : i < Config.maxProgLen) (x : IWord) :
    (p.place i x).wf = true := by
  simp only [Program.wf, Program.place, Bool.and_eq_true, decide_eq_true_eq] at h ⊢
  refine ⟨decide_eq_true (Nat.max_le.mpr ⟨h.1, hi⟩), cellsWrite_wf (Nat.lt_of_lt_of_le (Nat.lt_succ_self i) (Nat.le_max_right _ _)) x ?_⟩
  exact cellsWfFrom_mono (Nat.le_max_left _ _) (le_refl _) h.2

/-- A placed word is what its index fetches. -/
theorem Program.fetch_place_same (p : Program) (i : Nat) (x : IWord) : (p.place i x).fetch i = some x := by
  simp only [Program.fetch, Program.place, cellsRead_write_same]
  exact if_pos (Nat.lt_of_lt_of_le (Nat.lt_succ_self i) (Nat.le_max_right _ _))

end Sys2Proof.Machine
end

