-- ==== Sys2Proof/Laws/Decode.lean ====
section
/-! SUPPORT. The small laws of the binary level: fields of an assembled word, opcode numbers, selectors, and offsets in
two's complement. -/

namespace Sys2Proof

/-- The fields of an assembled word are the ones it was assembled from (R56). -/
@[simp] theorem fieldsOf_assemble (o : Opcode) (r1 r2 r3 : Sel) (imm : Word) :
    fieldsOf (assemble o r1 r2 r3 imm) = ⟨byteOfOpcode o, r1, r2, r3, 0, imm⟩ := by
  simp only [fieldsOf, assemble, Fields.mk.injEq]
  refine ⟨?_, ?_, ?_, ?_, ?_, ?_⟩ <;> ext i hi <;> simp <;> grind

/-- A word is the concatenation of its fields (R56). -/
theorem word_eq_fields (w : IWord) :
    w = ((fieldsOf w).op ++ (fieldsOf w).r1 ++ (fieldsOf w).r2 ++ (fieldsOf w).r3 ++ (fieldsOf w).rsv
      ++ (fieldsOf w).imm : IWord) := by
  ext i hi
  grind [fieldsOf]

/-- A word with a zero `rsv` is assembled from its fields. -/
theorem word_eq_assemble {w : IWord} {o : Opcode} (hop : (fieldsOf w).op = byteOfOpcode o)
    (hrsv : (fieldsOf w).rsv = 0) :
    w = assemble o (fieldsOf w).r1 (fieldsOf w).r2 (fieldsOf w).r3 (fieldsOf w).imm := by
  conv_lhs => rw [word_eq_fields w]
  rw [hop, hrsv]
  rfl

theorem selOfReg_toNat (r : Reg) : (selOfReg r).toNat = r.num := by
  cases r <;> rfl

@[simp] theorem opcodeOfByte_byteOfOpcode (o : Opcode) : opcodeOfByte (byteOfOpcode o) = some o := by
  cases o <;> rfl

/-- An opcode byte names an opcode only as its number (R58). -/
theorem opcodeOfByte_eq_some {b : BitVec 8} {o : Opcode} (h : opcodeOfByte b = some o) : b = byteOfOpcode o := by
  revert b o
  decide

@[simp] theorem regOfSel_selOfReg (r : Reg) : regOfSel (selOfReg r) = some r := by
  cases r <;> rfl

/-- A selector names a register only as its number (R59). -/
theorem regOfSel_eq_some {sel : Sel} {r : Reg} (h : regOfSel sel = some r) : sel = selOfReg r := by
  revert sel r
  decide

/-- A selector names no register exactly when it is above 8 (R59). -/
theorem regOfSel_eq_none {sel : Sel} : regOfSel sel = none ↔ 8 < sel.toNat := by
  revert sel
  decide

/-- A selector is above 8, or it is some register's. -/
theorem selector_cases (sel : Sel) : 8 < sel.toNat ∨ ∃ r, sel = selOfReg r := by
  cases h : regOfSel sel with
  | none => exact .inl (regOfSel_eq_none.mp h)
  | some r => exact .inr ⟨r, regOfSel_eq_some h⟩

/-- A selector above 8 is the fault InvalidRegister, whatever follows (R66). -/
theorem withReg_of_large {sel : Sel} (h : 8 < sel.toNat) (k : Reg → Decoded) : withReg sel k = .invalidRegister sel := by
  simp [withReg, regOfSel_eq_none.mpr h]

theorem selOfReg_le (r : Reg) : ¬ 8 < (selOfReg r).toNat := by
  cases r <;> decide

@[simp] theorem withReg_selOfReg (r : Reg) (k : Reg → Decoded) : withReg (selOfReg r) k = k r := by
  simp [withReg]

/-- An operand's selector gives an instruction only through the register it names. -/
theorem withReg_eq_instr {sel : Sel} {k : Reg → Decoded} {i : Instr} (h : withReg sel k = .instr i) :
    ∃ r, sel = selOfReg r ∧ k r = .instr i := by
  unfold withReg at h
  split at h
  · next r hr => exact ⟨r, regOfSel_eq_some hr, h⟩
  · exact absurd h (by simp)

/-- The two's complement reading of a field is an encodable offset (R61). -/
@[simp] theorem offsetEncodable_toInt (imm : Word) : offsetEncodable imm.toInt = true := by
  have h1 := BitVec.le_toInt imm
  have h2 := BitVec.toInt_lt (x := imm)
  simp only [offsetEncodable, Bool.and_eq_true, decide_eq_true_eq]
  exact ⟨by simpa using h1, by simpa using h2⟩

/-- An encodable offset is read back from its field (R61). -/
theorem toInt_ofInt_of_encodable {offset : Int} (h : offsetEncodable offset = true) :
    (BitVec.ofInt 32 offset).toInt = offset := by
  simp only [offsetEncodable, Bool.and_eq_true, decide_eq_true_eq] at h
  rw [BitVec.toInt_ofInt, Int.bmod_eq_of_le] <;> omega

/-- The unsigned reading of a field is an encodable value (R60). -/
@[simp] theorem valueEncodable_toNat (imm : Word) : valueEncodable imm.toNat = true := by
  simpa [valueEncodable] using imm.isLt

/-- An encodable value is read back from its field (R60). -/
theorem toNat_ofNat_of_encodable {value : Nat} (h : valueEncodable value = true) :
    (BitVec.ofNat 32 value).toNat = value := by
  simp only [valueEncodable, decide_eq_true_eq] at h
  simpa using h

end Sys2Proof
end

