-- ==== Sys2Proof/Laws/Table.lean ====
section
/-! SUPPORT. The mask and match of a row of the opcode table, said about fields: the bridge between R64's two ways to
say which words are instructions. -/

namespace Sys2Proof

theorem append_eq_append {n m : Nat} {a c : BitVec n} {b d : BitVec m} : a ++ b = c ++ d ↔ a = c ∧ b = d := by
  constructor
  · intro h
    have hhi := congrArg (fun x => x.extractLsb' m n) h
    have hlo := congrArg (fun x => x.extractLsb' 0 m) h
    simp only [BitVec.extractLsb'_append_eq_left, BitVec.extractLsb'_append_eq_right] at hhi hlo
    exact ⟨hhi, hlo⟩
  · rintro ⟨rfl, rfl⟩
    rfl

/-- A masked comparison of words is one of each field. -/
theorem word_and_eq_iff (w m c : IWord) :
    w &&& m = c ↔
      (fieldsOf w).op &&& (fieldsOf m).op = (fieldsOf c).op ∧ (fieldsOf w).r1 &&& (fieldsOf m).r1 = (fieldsOf c).r1 ∧
      (fieldsOf w).r2 &&& (fieldsOf m).r2 = (fieldsOf c).r2 ∧ (fieldsOf w).r3 &&& (fieldsOf m).r3 = (fieldsOf c).r3 ∧
      (fieldsOf w).rsv &&& (fieldsOf m).rsv = (fieldsOf c).rsv ∧
      (fieldsOf w).imm &&& (fieldsOf m).imm = (fieldsOf c).imm := by
  conv_lhs => rw [word_eq_fields w, word_eq_fields m, word_eq_fields c]
  rw [BitVec.and_append, BitVec.and_append, BitVec.and_append, BitVec.and_append, BitVec.and_append]
  rw [append_eq_append, append_eq_append, append_eq_append, append_eq_append, append_eq_append]
  simp only [and_assoc]

/-- A word matches a row exactly when it has the row's opcode number and its must-be-zero fields are zero. -/
theorem matchesWord_iff {row : TableRow} (h : row ∈ opcodeTable) (w : IWord) :
    row.matchesWord w = true ↔
      (fieldsOf w).op = byteOfOpcode row.opcode ∧ unusedZero row.opcode.format (fieldsOf w) = true := by
  have ones4 : ∀ x : BitVec 4, x &&& 15#4 = x := fun _ => BitVec.and_allOnes
  have ones8 : ∀ x : BitVec 8, x &&& 255#8 = x := fun _ => BitVec.and_allOnes
  have ones12 : ∀ x : BitVec 12, x &&& 4095#12 = x := fun _ => BitVec.and_allOnes
  have ones32 : ∀ x : BitVec 32, x &&& 4294967295#32 = x := fun _ => BitVec.and_allOnes
  rw [TableRow.matchesWord, beq_iff_eq, word_and_eq_iff]
  generalize fieldsOf w = f
  simp only [opcodeTable, List.mem_cons, List.not_mem_nil, or_false] at h
  rcases h with rfl | rfl | rfl | rfl | rfl | rfl | rfl | rfl | rfl | rfl | rfl | rfl | rfl | rfl | rfl | rfl
  all_goals
    simp [fieldsOf, unusedZero, Opcode.format, byteOfOpcode, ones4, ones8, ones12, ones32]
    try grind

/-- A word that matches a row decodes by building that row's instruction (R64, steps 3 and 4). -/
theorem decode_of_matchesWord {row : TableRow} (h : row ∈ opcodeTable) {w : IWord} (hm : row.matchesWord w = true) :
    decode w = buildInstr row.opcode (fieldsOf w) := by
  obtain ⟨hop, hz⟩ := (matchesWord_iff h w).mp hm
  simp [decode, hop, hz]

/-- Every opcode has its row. -/
theorem exists_row (o : Opcode) : ∃ row ∈ opcodeTable, row.opcode = o := by
  cases o <;> decide

end Sys2Proof
end

