-- ==== Sys2Proof/Laws/Ops.lean ====
section
/-! SUPPORT. One spec lemma per shared operation: everything a register write, a transfer, a memory access, a fault and
each operand form can do, in the terms of Safety.lean. -/

namespace Sys2Proof.Machine

/-! ### Words -/

/-- The number of an assembled word, field by field (R56). -/
theorem assemble_toNat (o : Opcode) (r1 r2 r3 : Sel) (imm : Word) :
    (assemble o r1 r2 r3 imm).toNat =
      wordNumber (byteOfOpcode o).toNat r1.toNat r2.toNat r3.toNat imm.toNat := by
  unfold assemble wordNumber
  simp only [BitVec.toNat_append]
  rw [← Nat.shiftLeft_add_eq_or_of_lt r1.isLt, ← Nat.shiftLeft_add_eq_or_of_lt r2.isLt,
    ← Nat.shiftLeft_add_eq_or_of_lt r3.isLt, ← Nat.shiftLeft_add_eq_or_of_lt (0#12).isLt,
    ← Nat.shiftLeft_add_eq_or_of_lt imm.isLt]
  simp only [Nat.shiftLeft_eq]
  simp
  omega

/-! ### Operands -/

/-- A register read in the execute phase is worth `operand` (R20). -/
@[simp] theorem preIncrement_getReg_toNat (s : State) (r : Reg) : (s.preIncrement.getReg r).toNat = s.operand r := by
  cases r <;> simp [State.getReg, State.operand, BitVec.toNat_add]

theorem operand_lt (s : State) (r : Reg) : s.operand r < 2 ^ 32 := by
  rw [← preIncrement_getReg_toNat]
  exact BitVec.isLt _

/-- The address a meaning forms is the exact sum (R34). -/
theorem addressOperand_eq (base : Reg) (offset : Int) (s : State) :
    addressOperand base offset s = s.effAddr base offset := by
  simp [addressOperand, effectiveAddress, State.effAddr]

theorem preIncrement_advances (s : State) : PcAdvances s s.preIncrement := by
  simp [PcAdvances, BitVec.toNat_add]

/-- What a passed offset check says (R62). -/
theorem withOffset_of_encodable {offset : Int} (h : offsetEncodable offset = true) (k : StepOutcome) :
    withOffset offset k = k := by
  simp [withOffset, h]

/-- A next state comes through the offset check only for an encodable offset. -/
theorem withOffset_eq_next {offset : Int} {k : StepOutcome} {t : State} :
    withOffset offset k = .next t ↔ offsetEncodable offset = true ∧ k = .next t := by
  unfold withOffset
  split <;> simp_all

/-! ### Register writes and transfers -/

/-- Everything a register write after the pre-increment does. -/
theorem setReg_writesResult (s : State) (rd : Reg) (v : Word) :
    WritesResult s (s.preIncrement.setReg rd v) rd v.toNat := by
  refine ⟨?_, ?_, ?_, ?_, ?_, ?_, ?_⟩
  · by_cases h : rd = .r0
    · simp [h]
    · rw [if_neg h, getReg_setReg_same h]
  · intro h
    rw [PcAdvances, setReg_keeps_pc h]
    exact preIncrement_advances s
  · intro r hpc hrd
    rw [getReg_setReg_ne hrd, getReg_preIncrement hpc]
  · intro a
    simp
  all_goals simp [KeepsRecord]

/-- Everything a transfer does. -/
theorem setPc_transfersTo (s : State) (target : Word) : TransfersTo s (s.preIncrement.setPc target) target.toNat := by
  refine ⟨rfl, ?_, fun _ => rfl, rfl, rfl, rfl, rfl, rfl, rfl⟩
  intro r hpc
  rw [getReg_setPc hpc, getReg_preIncrement hpc]

theorem preIncrement_transfersTo (s : State) : TransfersTo s s.preIncrement ((s.pc.toNat + 1) % 2 ^ 32) :=
  ⟨preIncrement_advances s, fun _ hpc => getReg_preIncrement hpc s, fun _ => rfl, rfl, rfl, rfl, rfl, rfl, rfl⟩

/-- A branch target is the exact sum modulo 2^32 (R22). -/
theorem branchTarget_toNat (base : Word) (offset : Int) :
    ((branchTarget base offset).toNat : Int) = ((base.toNat : Int) + offset) % 2 ^ 32 := by
  rw [branchTarget, BitVec.toNat_ofInt, Int.toNat_of_nonneg (Int.emod_nonneg _ (by decide))]
  rfl

/-- Everything a three-register form does. -/
theorem binaryOp_effect (f : Word → Word → Word) (ra rb rd : Reg) (s : State) :
    ∃ t, binaryOp f ra rb rd s = .next t ∧
      WritesResult s t rd (f (s.preIncrement.getReg ra) (s.preIncrement.getReg rb)).toNat :=
  ⟨_, rfl, setReg_writesResult s rd _⟩

/-- Everything a one-register form does. -/
theorem unaryOp_effect (f : Word → Word) (ra : Reg) (s : State) :
    ∃ t, unaryOp f ra s = .next t ∧ WritesResult s t ra (f (s.preIncrement.getReg ra)).toNat :=
  ⟨_, rfl, setReg_writesResult s ra _⟩

/-! ### Memory accesses -/

theorem addressValid_iff {ea : Int} : addressValid ea = true ↔ 0 ≤ ea ∧ ea ≤ 65535 := by
  simp only [addressValid, Bool.and_eq_true, decide_eq_true_eq, Config.memCells]
  omega

theorem addressValid_toNat_lt {ea : Int} (h : addressValid ea = true) : ea.toNat < Config.memCells := by
  have := addressValid_iff.mp h
  simp only [Config.memCells]
  omega

/-- A read of a valid address is the cell, and of any other nothing (R35). -/
theorem memRead_of_valid {ea : Int} (h : addressValid ea = true) (s : State) : s.memRead ea = some (s.cell ea.toNat) := by
  simp [State.memRead, h]

theorem memRead_of_invalid {ea : Int} (h : addressValid ea = false) (s : State) : s.memRead ea = none := by
  simp [State.memRead, h]

/-- A write of a valid address is the store, and of any other nothing (R36). -/
theorem memWrite_of_valid {ea : Int} (h : addressValid ea = true) (s : State) (v : Word) :
    s.memWrite ea v = some (s.storeCell ea.toNat v) := by
  simp [State.memWrite, h]

theorem memWrite_of_invalid {ea : Int} (h : addressValid ea = false) (s : State) (v : Word) : s.memWrite ea v = none := by
  simp [State.memWrite, h]

/-- A store sets one cell. -/
theorem cell_storeCell (s : State) (a : Nat) (v : Word) (b : Nat) :
    (s.storeCell a v).cell b = if b = a then v else s.cell b := by
  unfold State.storeCell
  split <;> simp [State.cell, cellsRead_write]

/-- A store emits at the port and nowhere else (R39). -/
theorem storeCell_out (s : State) (a : Nat) (v : Word) :
    (s.storeCell a v).out = if a = Config.ioOut then s.out ++ [v] else s.out := by
  unfold State.storeCell
  split <;> rfl

theorem storeCell_mem (s : State) (a : Nat) (v : Word) : (s.storeCell a v).mem = cellsWrite s.mem a v := by
  unfold State.storeCell
  split <;> rfl

@[simp] theorem storeCell_getReg (s : State) (a : Nat) (v : Word) (r : Reg) :
    (s.storeCell a v).getReg r = s.getReg r := by
  unfold State.storeCell
  split <;> simp

@[simp] theorem storeCell_pc (s : State) (a : Nat) (v : Word) : (s.storeCell a v).pc = s.pc :=
  storeCell_getReg s a v .pc

@[simp] theorem storeCell_status (s : State) (a : Nat) (v : Word) : (s.storeCell a v).status = s.status := by
  unfold State.storeCell
  split <;> rfl

@[simp] theorem storeCell_faultCause (s : State) (a : Nat) (v : Word) :
    (s.storeCell a v).faultCause = s.faultCause := by
  unfold State.storeCell
  split <;> rfl

@[simp] theorem storeCell_faultPc (s : State) (a : Nat) (v : Word) : (s.storeCell a v).faultPc = s.faultPc := by
  unfold State.storeCell
  split <;> rfl

@[simp] theorem storeCell_faultInfo (s : State) (a : Nat) (v : Word) :
    (s.storeCell a v).faultInfo = s.faultInfo := by
  unfold State.storeCell
  split <;> rfl

@[simp] theorem storeCell_program (s : State) (a : Nat) (v : Word) : (s.storeCell a v).program = s.program := by
  unfold State.storeCell
  split <;> rfl

/-- A store to a cell that exists keeps the canonical form of memory. -/
theorem storeCell_wf {s : State} (h : Memory.wf s.mem = true) {a : Nat} (ha : a < Config.memCells) (v : Word) :
    Memory.wf (s.storeCell a v).mem = true := by
  rw [storeCell_mem]
  exact Memory.write_wf h ha v

/-! ### Faults -/

/-- Everything taking a fault does (R141, R143). -/
theorem takeFault_takesFault (s : State) (cause : FaultCause) (info : BitVec 64) :
    TakesFault s (s.takeFault cause info) cause info :=
  ⟨rfl, rfl, rfl, rfl, fun _ => getReg_takeFault s cause info _, fun _ => rfl, rfl, rfl⟩

/-! ### Fetch -/

/-- A word placed at PC is the word fetched. -/
@[simp] theorem fetch_placeAtPc (s : State) (w : IWord) : (s.placeAtPc w).fetch = some w :=
  Program.fetch_place_same s.program s.pc.toNat w

theorem fetchDecode_of_fetch {s : State} {w : IWord} (h : s.fetch = some w) : s.fetchDecode = some (decode w) := by
  simp [State.fetchDecode, h]

end Sys2Proof.Machine
end

