-- ==== Sys2Proof/Laws/Step.lean ====
section
/-! SUPPORT. What exec and step can do, said once: the inversion lemmas that whole-machine claims are derived from. -/

namespace Sys2Proof.Machine

/-- The five things an instruction can do when exec answers a next state: write one register, write PC, store one cell,
halt, or take a MemoryFault. -/
inductive ExecEffect (i : Instr) (s : State) : State → Prop where
  | register (rd : Reg) (v : Word) (hd : destination i = some rd) : ExecEffect i s (s.preIncrement.setReg rd v)
  | transfer (target : Word) (hi : isTransfer i = true) : ExecEffect i s (s.preIncrement.setPc target)
  | store (rs rd : Reg) (offset : Int) (hi : i = .store rs rd offset)
      (hv : addressValid (s.effAddr rd offset) = true) :
      ExecEffect i s (s.preIncrement.storeCell (s.effAddr rd offset).toNat (s.preIncrement.getReg rs))
  | halt (hi : i = .halt) : ExecEffect i s s.preIncrement.halt
  | memoryFault (base : Reg) (offset : Int) (hi : Accesses i base offset) (he : offsetEncodable offset = true)
      (hv : addressValid (s.effAddr base offset) = false) :
      ExecEffect i s (s.memoryFault (s.effAddr base offset))

/-- The inversion lemma of exec. -/
theorem exec_effect {i : Instr} {s t : State} (h : exec i s = .next t) : ExecEffect i s t := by
  cases i with
  | add ra rb rd => cases h; exact .register rd _ rfl
  | sub ra rb rd => cases h; exact .register rd _ rfl
  | inc ra => cases h; exact .register ra _ rfl
  | dec ra => cases h; exact .register ra _ rfl
  | and ra rb rd => cases h; exact .register rd _ rfl
  | or ra rb rd => cases h; exact .register rd _ rfl
  | xor ra rb rd => cases h; exact .register rd _ rfl
  | shl ra rb rd => cases h; exact .register rd _ rfl
  | shr ra rb rd => cases h; exact .register rd _ rfl
  | cmp ra rb rd => cases h; exact .register rd _ rfl
  | const value rd => cases h; exact .register rd _ rfl
  | load rs rd offset =>
    obtain ⟨he, h⟩ := withOffset_eq_next.mp h
    rw [addressOperand_eq] at h
    cases hv : addressValid (s.effAddr rs offset) with
    | true => rw [memRead_of_valid hv] at h; cases h; exact .register rd _ rfl
    | false => rw [memRead_of_invalid hv] at h; cases h; exact .memoryFault rs offset (.inl ⟨rd, rfl⟩) he hv
  | store rs rd offset =>
    obtain ⟨he, h⟩ := withOffset_eq_next.mp h
    rw [addressOperand_eq] at h
    cases hv : addressValid (s.effAddr rd offset) with
    | true => rw [memWrite_of_valid hv] at h; cases h; exact .store rs rd offset rfl hv
    | false => rw [memWrite_of_invalid hv] at h; cases h; exact .memoryFault rd offset (.inr ⟨rs, rfl⟩) he hv
  | jmp rd offset =>
    obtain ⟨-, h⟩ := withOffset_eq_next.mp h
    cases h
    exact .transfer _ rfl
  | bz rt offset =>
    obtain ⟨-, h⟩ := withOffset_eq_next.mp h
    split at h <;> cases h
    · exact .transfer _ rfl
    · exact .transfer _ rfl
  | halt => cases h; exact .halt rfl

/-- What a step from a Running state does: it takes one of the three faults of fetch and decode, or executes. -/
theorem step_running {s : State} (hs : s.status = .running) :
    (s.program.len ≤ s.pc.toNat ∧ s.fetch = none ∧ step s = .next s.programBoundsFault) ∨
    (∃ w, s.fetch = some w ∧ decode w = .invalidOpcode ∧ step s = .next (s.invalidOpcodeFault w)) ∨
    (∃ w sel, s.fetch = some w ∧ decode w = .invalidRegister sel ∧ step s = .next (s.invalidRegisterFault sel)) ∨
    (∃ w i, s.fetch = some w ∧ decode w = .instr i ∧ step s = exec i s) := by
  cases hf : s.fetch with
  | none =>
    refine .inl ⟨?_, rfl, by simp [step, hs, hf]⟩
    simp only [State.fetch, Program.fetch] at hf
    split at hf
    · exact absurd hf (by simp)
    · omega
  | some w =>
    cases hd : decode w with
    | invalidOpcode => exact .inr (.inl ⟨w, rfl, hd, by simp [step, hs, hf, hd]⟩)
    | invalidRegister sel => exact .inr (.inr (.inl ⟨w, sel, rfl, hd, by simp [step, hs, hf, hd]⟩))
    | instr i => exact .inr (.inr (.inr ⟨w, i, rfl, hd, by simp [step, hs, hf, hd]⟩))

/-- The inversion lemma of step: a next state comes from a Running state, by a fault of fetch or decode or by the
decoded instruction. -/
inductive StepEffect (s : State) : State → Prop where
  | bounds (hout : s.program.len ≤ s.pc.toNat) (hf : s.fetch = none) : StepEffect s s.programBoundsFault
  | opcode (w : IWord) (hf : s.fetch = some w) (hd : decode w = .invalidOpcode) : StepEffect s (s.invalidOpcodeFault w)
  | selector (w : IWord) (sel : Sel) (hf : s.fetch = some w) (hd : decode w = .invalidRegister sel) :
      StepEffect s (s.invalidRegisterFault sel)
  | executes (w : IWord) (i : Instr) (t : State) (hf : s.fetch = some w) (hd : decode w = .instr i)
      (he : exec i s = .next t) : StepEffect s t

theorem step_effect {s t : State} (h : step s = .next t) : s.status = .running ∧ StepEffect s t := by
  cases hs : s.status with
  | halted => simp [step, hs] at h
  | faulted => simp [step, hs] at h
  | running =>
    refine ⟨rfl, ?_⟩
    rcases step_running hs with ⟨ho, hf, h'⟩ | ⟨w, hf, hd, h'⟩ | ⟨w, sel, hf, hd, h'⟩ | ⟨w, i, hf, hd, h'⟩
    · rw [h'] at h; cases h; exact .bounds ho hf
    · rw [h'] at h; cases h; exact .opcode w hf hd
    · rw [h'] at h; cases h; exact .selector w sel hf hd
    · rw [h'] at h; exact .executes w i t hf hd h

end Sys2Proof.Machine
end

