-- ==== Sys2Proof/Laws/Blocks.lean ====
section
/-! SUPPORT. One lemma per hardware block: what its ports carry, in the terms of the step. -/

namespace Sys2Proof.Machine.Blocks

/-! ### fetch_unit -/

/-- The fetch fault is the bounds check of R73, for every PROG_LEN of R7. -/
theorem fetchFault_eq {s : State} (hlen : s.program.len ≤ 2 ^ 32) :
    fetchFault s.pc (progLenPort s) = decide (s.program.len ≤ s.pc.toNat) := by
  have hpc := s.pc.isLt
  simp only [fetchFault, progLenPort, BitVec.le_def, BitVec.toNat_ofNat, BitVec.toNat_setWidth]
  rw [Nat.mod_eq_of_lt (by omega), Nat.mod_eq_of_lt (by omega)]

/-- The word on `imem_rdata` is the fetched one (R125). -/
theorem imemRdata_of_fetch {s : State} {w : IWord} (h : s.fetch = some w) : imemRdata s s.pc = w := by
  simp only [State.fetch] at h
  simp [imemRdata, h]

/-! ### instruction_decoder -/

theorem op_eq (w : IWord) : op w = (fieldsOf w).op := rfl
theorem sel1_eq (w : IWord) : sel1 w = (fieldsOf w).r1 := rfl
theorem sel2_eq (w : IWord) : sel2 w = (fieldsOf w).r2 := rfl
theorem sel3_eq (w : IWord) : sel3 w = (fieldsOf w).r3 := rfl
theorem imm_eq (w : IWord) : imm w = (fieldsOf w).imm := rfl

/-- The `op` port of an encoded instruction. -/
theorem op_encode (i : Instr) : op (encode i) = byteOfOpcode i.opcode := by
  rw [op_eq]
  cases i <;> simp [encode, Instr.opcode]

/-- The decoder finds a row exactly when one matches. -/
theorem matchedRow_cases (w : IWord) :
    (∃ row ∈ opcodeTable, row.matchesWord w = true ∧ matchedRow w = some row) ∨
    ((∀ row ∈ opcodeTable, row.matchesWord w = false) ∧ matchedRow w = none) := by
  cases h : matchedRow w with
  | none => exact .inr ⟨by simpa [matchedRow] using h, rfl⟩
  | some row =>
    exact .inl ⟨row, List.mem_of_find?_eq_some h, List.find?_some (p := fun r : TableRow => r.matchesWord w) h, rfl⟩

/-- A word with neither decode fault is an instruction. -/
theorem isInstruction_eq_true {w : IWord} :
    isInstruction w = true ↔ decInvalidOpcode w = false ∧ decInvalidRegister w = false := by
  simp [isInstruction]

/-- The outputs that R126 gives for an instruction. -/
theorem classPort_of_isInstruction {w : IWord} (h : isInstruction w = true) (n : Nat) (v : Bool) :
    classPort n w v = v := by
  simp [classPort, h]

theorem selPort_of_isInstruction {w : IWord} (h : isInstruction w = true) (n : Nat) (v : Sel) : selPort n w v = v := by
  simp [selPort, h]

/-! ### register_file -/

/-- A read port shows what a register operand is worth in the execute phase (R127). -/
theorem regRead_selOfReg (s : State) (r : Reg) : regRead s (selOfReg r) = s.preIncrement.getReg r := by
  cases r <;> rfl

/-- A register write after the pre-increment, register by register, as the file's write port makes it. -/
theorem preIncrement_setReg_eq (s : State) (r : Reg) (v : Word) :
    s.preIncrement.setReg r v =
      ({ s with
          r1 := regNext s.r1 1 true (selOfReg r) v
          r2 := regNext s.r2 2 true (selOfReg r) v
          r3 := regNext s.r3 3 true (selOfReg r) v
          r4 := regNext s.r4 4 true (selOfReg r) v
          r5 := regNext s.r5 5 true (selOfReg r) v
          r6 := regNext s.r6 6 true (selOfReg r) v
          r7 := regNext s.r7 7 true (selOfReg r) v
          pc := if selOfReg r == 8 then v else s.pc + 1 } : State) := by
  cases r <;> rfl

/-! ### The edge -/

/-- The wires of a cycle that commits (R132). -/
theorem wires_commit {s : State} (hs : s.status = .running) {w : IWord} (hw : imemRdata s s.pc = w)
    (hf : fetchFault s.pc (progLenPort s) = false) (hd : decInvalidOpcode w = false)
    (hr : decInvalidRegister w = false) (hm : (wires false s).memFault = false) :
    (wires false s).instr = w ∧ (wires false s).commit = true ∧ (wires false s).faultRequest = false ∧
      (wires false s).storeCommit = isStore w := by
  subst hw
  simp only [wires] at hm ⊢
  simp [commit, hs, hf, hd, hr, hm]

/-- An edge with a fault request takes the fault the priority picks, and nothing else (R132). -/
theorem edge_takes_fault {s : State} (hs : s.status = .running) {w : IWord} (hw : imemRdata s s.pc = w)
    {ff di dr mf : Bool} (hf : fetchFault s.pc (progLenPort s) = ff) (hd : decInvalidOpcode w = di)
    (hr : decInvalidRegister w = dr) (hm : (wires false s).memFault = mf) (hany : (ff || di || dr || mf) = true) :
    edge false s =
      s.takeFault (causeLatched ff di dr) (infoLatched ff di dr s.pc w (badSel w) (wires false s).ea) := by
  subst hw hf hd hr hm
  have hc : (wires false s).commit = false := by
    simp only [wires, commit] at hany ⊢
    rw [hany]
    simp
  have hq : (wires false s).faultRequest = true := by
    simp only [wires] at hany ⊢
    rw [hany]
    simp [hs]
  have hsc : (wires false s).storeCommit = false := by
    show (isStore (wires false s).instr && (wires false s).commit) = false
    rw [hc, Bool.and_false]
  simp only [edge, clocked, hc, hq, hsc, State.takeFault]
  simp [regNext, pcNext, ioOutValid]
  exact ⟨rfl, rfl⟩

/-- An edge that commits an instruction with a destination register operand is one register write. -/
theorem clocked_writes_register {s : State} {w : IWord} {r : Reg} {wr : Wires} (hi : wr.instr = w)
    (hc : wr.commit = true) (hq : wr.faultRequest = false) (hs : wr.storeCommit = false) (hen : wrEn w = true)
    (hsel : wrSel w = selOfReg r) (hhalt : isHalt w = false) (hjmp : isJmp w = false)
    (hbz : isBz w = false) : clocked s wr = s.preIncrement.setReg r wr.wrData := by
  rw [preIncrement_setReg_eq]
  simp [clocked, hi, hc, hq, hs, hen, hsel, pcNext, hhalt, hjmp, hbz, ioOutValid]

end Sys2Proof.Machine.Blocks
end

