-- ==== Sys2Proof/Laws/PerInstr.lean ====
section
/-! SUPPORT. The family EncodesInRow, said of every instruction as syntax: its word matches its own row of the opcode
table and no selector in it is offending, whatever its operands (R57, R59, R64). -/

namespace Sys2Proof.Laws

/-- The word of `i` is in the row of its opcode, with every selector naming a register. -/
def EncodesInRow.Statement (i : Instr) : Prop :=
  ∃ row ∈ opcodeTable, row.opcode = i.opcode ∧ row.matchesWord (encode i) = true ∧
    row.firstBadSelector (encode i) = none

/-- A row's register fields, read from a word assembled with registers in its first fields, are no offending ones. -/
theorem firstBadSelector_of_fields {row : TableRow} {w : IWord}
    (h : ∀ lo ∈ row.regFields, ¬ 8 < (w.extractLsb' lo 4).toNat) : row.firstBadSelector w = none := by
  simpa [TableRow.firstBadSelector] using h

/-- A word assembled from the registers that its row's register fields hold is in that row. -/
theorem encodesInRow_of_assemble {i : Instr} {o : Opcode} {r1 r2 r3 : Sel} {imm : Word} (row : TableRow)
    (hmem : row ∈ opcodeTable) (hrow : row.opcode = o) (ho : i.opcode = o) (he : encode i = assemble o r1 r2 r3 imm)
    (hz : unusedZero o.format ⟨byteOfOpcode o, r1, r2, r3, 0, imm⟩ = true)
    (hsel : ∀ lo ∈ row.regFields, (lo = 52 ∧ ∃ r, r1 = selOfReg r) ∨ (lo = 48 ∧ ∃ r, r2 = selOfReg r) ∨
      (lo = 44 ∧ ∃ r, r3 = selOfReg r)) : EncodesInRow.Statement i := by
  have hf : fieldsOf (encode i) = ⟨byteOfOpcode o, r1, r2, r3, 0, imm⟩ := by rw [he, fieldsOf_assemble]
  refine ⟨row, hmem, hrow.trans ho.symm, ?_, firstBadSelector_of_fields ?_⟩
  · rw [matchesWord_iff hmem, hf, hrow]
    exact ⟨rfl, hz⟩
  · intro lo hlo
    rcases hsel lo hlo with ⟨rfl, r, rfl⟩ | ⟨rfl, r, rfl⟩ | ⟨rfl, r, rfl⟩
    · rw [show (encode i).extractLsb' 52 4 = selOfReg r from congrArg Fields.r1 hf]
      exact selOfReg_le r
    · rw [show (encode i).extractLsb' 48 4 = selOfReg r from congrArg Fields.r2 hf]
      exact selOfReg_le r
    · rw [show (encode i).extractLsb' 44 4 = selOfReg r from congrArg Fields.r3 hf]
      exact selOfReg_le r

namespace EncodesInRow

theorem add (ra rb rd : Reg) : Statement (.add ra rb rd) :=
  encodesInRow_of_assemble ⟨.add, 0x0100000000000000, 0xFF000FFFFFFFFFFF, [52, 48, 44]⟩ (by decide) rfl rfl rfl rfl
    (by simp)

theorem sub (ra rb rd : Reg) : Statement (.sub ra rb rd) :=
  encodesInRow_of_assemble ⟨.sub, 0x0200000000000000, 0xFF000FFFFFFFFFFF, [52, 48, 44]⟩ (by decide) rfl rfl rfl rfl
    (by simp)

theorem inc (ra : Reg) : Statement (.inc ra) :=
  encodesInRow_of_assemble ⟨.inc, 0x0300000000000000, 0xFF0FFFFFFFFFFFFF, [52]⟩ (by decide) rfl rfl rfl rfl (by simp)

theorem dec (ra : Reg) : Statement (.dec ra) :=
  encodesInRow_of_assemble ⟨.dec, 0x0400000000000000, 0xFF0FFFFFFFFFFFFF, [52]⟩ (by decide) rfl rfl rfl rfl (by simp)

theorem and (ra rb rd : Reg) : Statement (.and ra rb rd) :=
  encodesInRow_of_assemble ⟨.and, 0x0500000000000000, 0xFF000FFFFFFFFFFF, [52, 48, 44]⟩ (by decide) rfl rfl rfl rfl
    (by simp)

theorem or (ra rb rd : Reg) : Statement (.or ra rb rd) :=
  encodesInRow_of_assemble ⟨.or, 0x0600000000000000, 0xFF000FFFFFFFFFFF, [52, 48, 44]⟩ (by decide) rfl rfl rfl rfl
    (by simp)

theorem xor (ra rb rd : Reg) : Statement (.xor ra rb rd) :=
  encodesInRow_of_assemble ⟨.xor, 0x0700000000000000, 0xFF000FFFFFFFFFFF, [52, 48, 44]⟩ (by decide) rfl rfl rfl rfl
    (by simp)

theorem shl (ra rb rd : Reg) : Statement (.shl ra rb rd) :=
  encodesInRow_of_assemble ⟨.shl, 0x0800000000000000, 0xFF000FFFFFFFFFFF, [52, 48, 44]⟩ (by decide) rfl rfl rfl rfl
    (by simp)

theorem shr (ra rb rd : Reg) : Statement (.shr ra rb rd) :=
  encodesInRow_of_assemble ⟨.shr, 0x0900000000000000, 0xFF000FFFFFFFFFFF, [52, 48, 44]⟩ (by decide) rfl rfl rfl rfl
    (by simp)

theorem cmp (ra rb rd : Reg) : Statement (.cmp ra rb rd) :=
  encodesInRow_of_assemble ⟨.cmp, 0x0A00000000000000, 0xFF000FFFFFFFFFFF, [52, 48, 44]⟩ (by decide) rfl rfl rfl rfl
    (by simp)

theorem const (value : Nat) (rd : Reg) : Statement (.const value rd) :=
  encodesInRow_of_assemble ⟨.const, 0x0B00000000000000, 0xFF0FFFFF00000000, [52]⟩ (by decide) rfl rfl rfl rfl (by simp)

theorem load (rs rd : Reg) (offset : Int) : Statement (.load rs rd offset) :=
  encodesInRow_of_assemble ⟨.load, 0x0C00000000000000, 0xFF00FFFF00000000, [52, 48]⟩ (by decide) rfl rfl rfl rfl
    (by simp)

theorem store (rs rd : Reg) (offset : Int) : Statement (.store rs rd offset) :=
  encodesInRow_of_assemble ⟨.store, 0x0D00000000000000, 0xFF00FFFF00000000, [52, 48]⟩ (by decide) rfl rfl rfl rfl
    (by simp)

theorem jmp (rd : Reg) (offset : Int) : Statement (.jmp rd offset) :=
  encodesInRow_of_assemble ⟨.jmp, 0x0E00000000000000, 0xFF0FFFFF00000000, [52]⟩ (by decide) rfl rfl rfl rfl (by simp)

theorem bz (rt : Reg) (offset : Int) : Statement (.bz rt offset) :=
  encodesInRow_of_assemble ⟨.bz, 0x0F00000000000000, 0xFF0FFFFF00000000, [52]⟩ (by decide) rfl rfl rfl rfl (by simp)

theorem halt : Statement .halt :=
  encodesInRow_of_assemble ⟨.halt, 0x1000000000000000, 0xFFFFFFFFFFFFFFFF, []⟩ (by decide) rfl rfl rfl rfl (by simp)

end EncodesInRow

end Sys2Proof.Laws
end

