-- ==== Sys2Proof/Tests/Slice0.lean ====
section
/-! SUPPORT. Tests of the model. Every expected result is taken from the tables of 95_test_vectors.md (the section is
named) or worked out by hand from the rule named. The last part gives one witness for each statement that has
hypotheses: a state and operands that meet them all. -/

namespace Sys2Proof.Tests

open Sys2Proof.Machine

/-- The start state of a vector: the reset state with PC = i, PROG_LEN = i + 1 and the word at index i. -/
def startAt (i : Nat) (w : IWord) : State :=
  { State.reset with pc := BitVec.ofNat 32 i, program := Program.place { len := 0, words := [] } i w }

/-- The start state of a vector at index 10. -/
def at10 (w : IWord) : State := startAt 10 w

/-- The next state, where there is one. -/
def nextOf : StepOutcome → Option State
  | .next t => some t
  | .fault _ => none
  | .refused _ => none

/-- The refusal, where there is one. -/
def refusalOf : StepOutcome → Option Refusal
  | .next _ => none
  | .fault _ => none
  | .refused r => some r

/-- The fault that stops a step, where there is one. -/
def stopOf : StepOutcome → Option Fault
  | .next _ => none
  | .fault f => some f
  | .refused _ => none

/-- One step, seen through a few fields. -/
def after {α : Type} (s : State) (view : State → α) : Option α :=
  (nextOf (step s)).map view

/-- The view of a fault: status, cause, fault_pc, fault_info, PC. -/
def faultView (t : State) : Status × FaultCause × Word × BitVec 64 × Word :=
  (t.status, t.faultCause, t.faultPc, t.faultInfo, t.pc)

/-! ### Well-formedness (R62) -/

/-- One above the largest CONST value has no encoding. -/
theorem test_wf_const_too_large : (Instr.const 4294967296 .r1).wf = false := by decide

theorem test_wf_const_largest : (Instr.const 4294967295 .r1).wf = true := by decide

theorem test_wf_load_offset_too_large : (Instr.load .r1 .r2 2147483648).wf = false := by decide

theorem test_wf_load_offset_too_small : (Instr.load .r1 .r2 (-2147483649)).wf = false := by decide

theorem test_wf_store_offset_too_large : (Instr.store .r1 .r2 2147483648).wf = false := by decide

theorem test_wf_store_offset_too_small : (Instr.store .r1 .r2 (-2147483649)).wf = false := by decide

theorem test_wf_jmp_offset_too_large : (Instr.jmp .r1 2147483648).wf = false := by decide

theorem test_wf_jmp_offset_too_small : (Instr.jmp .r1 (-2147483649)).wf = false := by decide

theorem test_wf_bz_offset_too_large : (Instr.bz .r1 2147483648).wf = false := by decide

theorem test_wf_bz_offset_too_small : (Instr.bz .r1 (-2147483649)).wf = false := by decide

theorem test_wf_offsets_at_the_ends :
    (Instr.load .r0 .pc 2147483647).wf = true ∧ (Instr.bz .pc (-2147483648)).wf = true := by decide

theorem test_unencodable_offset_is_refused :
    refusalOf (exec (.jmp .r1 2147483648) State.reset) = some .offsetNotEncodable := by decide

/-- R62: 2^32 + 5 behaves as 5. -/
theorem test_const_value_is_reduced :
    (nextOf (exec (.const 4294967301 .r1) State.reset)).map (·.r1) = some 5 := by decide

/-! ### Decoding: words written out from R56 to R61, field by field, and the table of section 2.8 -/

theorem test_decode_add :
    decode (0x01#8 ++ 1#4 ++ 2#4 ++ 3#4 ++ 0#12 ++ 0x00000000#32 : IWord) = .instr (.add .r1 .r2 .r3) := by decide

theorem test_decode_sub :
    decode (0x02#8 ++ 8#4 ++ 1#4 ++ 8#4 ++ 0#12 ++ 0x00000000#32 : IWord) = .instr (.sub .pc .r1 .pc) := by decide

theorem test_decode_inc :
    decode (0x03#8 ++ 7#4 ++ 0#4 ++ 0#4 ++ 0#12 ++ 0x00000000#32 : IWord) = .instr (.inc .r7) := by decide

theorem test_decode_dec :
    decode (0x04#8 ++ 8#4 ++ 0#4 ++ 0#4 ++ 0#12 ++ 0x00000000#32 : IWord) = .instr (.dec .pc) := by decide

theorem test_decode_and :
    decode (0x05#8 ++ 1#4 ++ 0#4 ++ 3#4 ++ 0#12 ++ 0x00000000#32 : IWord) = .instr (.and .r1 .r0 .r3) := by decide

theorem test_decode_or :
    decode (0x06#8 ++ 4#4 ++ 5#4 ++ 6#4 ++ 0#12 ++ 0x00000000#32 : IWord) = .instr (.or .r4 .r5 .r6) := by decide

theorem test_decode_xor :
    decode (0x07#8 ++ 6#4 ++ 5#4 ++ 4#4 ++ 0#12 ++ 0x00000000#32 : IWord) = .instr (.xor .r6 .r5 .r4) := by decide

theorem test_decode_shl :
    decode (0x08#8 ++ 1#4 ++ 4#4 ++ 2#4 ++ 0#12 ++ 0x00000000#32 : IWord) = .instr (.shl .r1 .r4 .r2) := by decide

theorem test_decode_shr :
    decode (0x09#8 ++ 2#4 ++ 4#4 ++ 1#4 ++ 0#12 ++ 0x00000000#32 : IWord) = .instr (.shr .r2 .r4 .r1) := by decide

theorem test_decode_cmp :
    decode (0x0A#8 ++ 3#4 ++ 7#4 ++ 8#4 ++ 0#12 ++ 0x00000000#32 : IWord) = .instr (.cmp .r3 .r7 .pc) := by decide

theorem test_decode_const :
    decode (0x0B#8 ++ 1#4 ++ 0#4 ++ 0#4 ++ 0#12 ++ 0xFFFFFFFF#32 : IWord) = .instr (.const 4294967295 .r1) := by decide

theorem test_decode_load :
    decode (0x0C#8 ++ 1#4 ++ 2#4 ++ 0#4 ++ 0#12 ++ 0xFFFFFFFF#32 : IWord) = .instr (.load .r1 .r2 (-1)) := by decide

theorem test_decode_store :
    decode (0x0D#8 ++ 1#4 ++ 0#4 ++ 0#4 ++ 0#12 ++ 0x0000FFFF#32 : IWord) = .instr (.store .r1 .r0 65535) := by decide

theorem test_decode_jmp :
    decode (0x0E#8 ++ 6#4 ++ 0#4 ++ 0#4 ++ 0#12 ++ 0x80000000#32 : IWord) = .instr (.jmp .r6 (-2147483648)) := by decide

theorem test_decode_bz :
    decode (0x0F#8 ++ 2#4 ++ 0#4 ++ 0#4 ++ 0#12 ++ 0xFFFFFFFC#32 : IWord) = .instr (.bz .r2 (-4)) := by decide

theorem test_decode_halt :
    decode (0x10#8 ++ 0#4 ++ 0#4 ++ 0#4 ++ 0#12 ++ 0x00000000#32 : IWord) = .instr (.halt) := by decide

theorem test_decode_invalid_opcode_zero : decode 0x0000000000000000 = .invalidOpcode := by decide

theorem test_decode_invalid_opcode_op_above_halt : decode 0x1100000000000000 = .invalidOpcode := by decide

theorem test_decode_invalid_opcode_rrr_imm : decode 0x0112300000000001 = .invalidOpcode := by decide

theorem test_decode_invalid_opcode_rsv : decode 0x0112300100000000 = .invalidOpcode := by decide

theorem test_decode_invalid_opcode_rsv_bit_43 : decode 0x0112380000000000 = .invalidOpcode := by decide

theorem test_decode_invalid_opcode_r_form_r2 : decode 0x0311000000000000 = .invalidOpcode := by decide

theorem test_decode_invalid_opcode_ri_form_r2 : decode 0x0B01000000000005 = .invalidOpcode := by decide

theorem test_decode_invalid_opcode_rri_form_r3 : decode 0x0C12100000000000 = .invalidOpcode := by decide

theorem test_decode_invalid_opcode_n_form_r1 : decode 0x1010000000000000 = .invalidOpcode := by decide

theorem test_decode_invalid_opcode_op_before_selector : decode 0x11F0000000000000 = .invalidOpcode := by decide

theorem test_decode_invalid_register_r1_first : decode 0x019A300000000000 = .invalidRegister 9 := by decide

theorem test_decode_invalid_register_r2_before_r3 : decode 0x0119A00000000000 = .invalidRegister 9 := by decide

theorem test_decode_invalid_register_r3 : decode 0x0112F00000000000 = .invalidRegister 15 := by decide

theorem test_decode_invalid_register_const : decode 0x0BF0000000000005 = .invalidRegister 15 := by decide

theorem test_decode_invalid_register_store_r2 : decode 0x0D1F000000000000 = .invalidRegister 15 := by decide

theorem test_decode_invalid_register_bz : decode 0x0F90000000000005 = .invalidRegister 9 := by decide

theorem test_table_word_halt : decodeTableWord 64 0x1000000000000000 = some .halt := by decide

/-- R42. -/
theorem test_bytes_most_significant_first :
    bytesOfIWord 0x0B100000DEADBEEF = [0x0B, 0x10, 0, 0, 0xDE, 0xAD, 0xBE, 0xEF] := by decide

theorem test_decode_bytes : decodeBytes [0x10, 0, 0, 0, 0, 0, 0, 0, 0xAA] = some (.instr .halt, [0xAA]) := by decide

theorem test_table_rows_have_distinct_opcodes :
    (opcodeTable.map (·.opcode)).Nodup ∧ opcodeTable.length = 16 := by decide

/-! ### One step of each instruction: sections 2.1 to 2.7 -/

theorem test_add_wraps :
    after { at10 0x0112300000000000 with r1 := 0xFFFFFFFF, r2 := 0xFFFFFFFF } (fun t => (t.r3, t.pc)) = some (0xFFFFFFFE, 11) := by decide

/-- ADD PC, PC, PC at 10. -/
theorem test_add_pc_operands : after (at10 0x0188800000000000) (fun t => (t.pc, t.r7)) = some (22, 65534) := by decide

theorem test_sub_borrows :
    after { at10 0x0212300000000000 with r1 := 5, r2 := 7 } (fun t => (t.r3, t.pc)) = some (0xFFFFFFFE, 11) := by decide

theorem test_sub_from_r0 :
    after { at10 0x0201200000000000 with r1 := 1 } (fun t => (t.r2, t.pc)) = some (0xFFFFFFFF, 11) := by decide

theorem test_inc_wraps :
    after { at10 0x0310000000000000 with r1 := 0xFFFFFFFF } (fun t => (t.r1, t.pc)) = some (0, 11) := by decide

theorem test_inc_pc : after (at10 0x0380000000000000) (fun t => t.pc) = some 12 := by decide

theorem test_dec_wraps : after (at10 0x0410000000000000) (fun t => (t.r1, t.pc)) = some (0xFFFFFFFF, 11) := by decide

theorem test_dec_pc_at_0 : after (startAt 0 0x0480000000000000) (fun t => t.pc) = some 0 := by decide

theorem test_and :
    after { at10 0x0512300000000000 with r1 := 0xF0F0F0F0, r2 := 0xFF00FF00 } (fun t => (t.r3, t.pc)) = some (0xF000F000, 11) := by decide

theorem test_and_source_pc :
    after { at10 0x0581200000000000 with r1 := 1 } (fun t => (t.r2, t.pc)) = some (1, 11) := by decide

theorem test_or_source_is_destination :
    after { at10 0x0612100000000000 with r1 := 0x80000000, r2 := 1 } (fun t => (t.r1, t.pc)) = some (0x80000001, 11) := by decide

theorem test_or_destination_r0 :
    after { at10 0x0612000000000000 with r1 := 1, r2 := 2 } (fun t => (t.getReg .r0, t.pc)) = some (0, 11) := by decide

theorem test_xor :
    after { at10 0x0712300000000000 with r1 := 0xFFFFFFFF, r2 := 0x12345678 } (fun t => (t.r3, t.pc)) = some (0xEDCBA987, 11) := by decide

theorem test_xor_with_itself :
    after { at10 0x0711100000000000 with r1 := 0x12345678 } (fun t => (t.r1, t.pc)) = some (0, 11) := by decide

theorem test_shl_31 :
    after { at10 0x0812300000000000 with r1 := 1, r2 := 31 } (fun t => (t.r3, t.pc)) = some (0x80000000, 11) := by decide

theorem test_shl_count_not_reduced :
    after { at10 0x0812300000000000 with r1 := 0xFFFFFFFF, r2 := 0x100, r3 := 9 } (fun t => (t.r3, t.pc)) = some (0, 11) := by decide

theorem test_shr_is_logical :
    after { at10 0x0912300000000000 with r1 := 0x80000000, r2 := 4 } (fun t => (t.r3, t.pc)) = some (0x08000000, 11) := by decide

theorem test_shr_32 :
    after { at10 0x0912300000000000 with r1 := 0x80000000, r2 := 32, r3 := 9 } (fun t => (t.r3, t.pc)) = some (0, 11) := by decide

theorem test_cmp_unequal :
    after { at10 0x0A12300000000000 with r1 := 0x80000000, r3 := 9 } (fun t => (t.r3, t.pc)) = some (0, 11) := by decide

theorem test_cmp_equal_to_pc :
    after { at10 0x0A12800000000000 with r1 := 5, r2 := 5 } (fun t => t.pc) = some 1 := by decide

theorem test_const_all_ones :
    after (at10 0x0B300000FFFFFFFF) (fun t => (t.r3, t.pc)) = some (0xFFFFFFFF, 11) := by decide

theorem test_const_pc : after (at10 0x0B80000000000064) (fun t => t.pc) = some 100 := by decide

theorem test_load_negative_offset :
    after { at10 0x0C120000FFFFFFFF with r1 := 0x64, mem := [(99, 7), (100, 8)] } (fun t => (t.r2, t.pc)) = some (7, 11) := by decide

/-- The exact address 4294967300 faults. -/
theorem test_load_does_not_wrap :
    after { at10 0x0C12000000000005 with r1 := 0xFFFFFFFF, r2 := 9, mem := [(4, 0x44)] } (fun t => (faultView t, t.r2)) = some ((.faulted, .memoryFault, 10, 4294967300, 10), 9) := by decide

theorem test_store_to_the_port :
    after { at10 0x0D17000000000001 with r1 := 5 } (fun t => (t.mem, t.out, t.pc)) = some ([(65535, 5)], [5], 11) := by decide

theorem test_store_zero_keeps_memory_canonical :
    after { at10 0x0D01000000000000 with r1 := 0x4D, mem := [(77, 5)] } (fun t => (t.mem, t.out, t.pc)) = some ([], [], 11) := by decide

theorem test_jmp_wraps : after { at10 0x0E10000000000003 with r1 := 0xFFFFFFFF } (fun t => t.pc) = some 2 := by decide

theorem test_jmp_least_offset :
    after { at10 0x0E10000080000000 with r1 := 0x80000005 } (fun t => t.pc) = some 5 := by decide

theorem test_bz_taken_wraps : after (startAt 0 0x0F100000FFFFFFFE) (fun t => t.pc) = some 0xFFFFFFFF := by decide

theorem test_bz_not_taken :
    after { at10 0x0F10000000000003 with r1 := 0x80000000 } (fun t => t.pc) = some 11 := by decide

theorem test_halt : after (at10 0x1000000000000000) (fun t => (t.status, t.pc)) = some (.halted, 11) := by decide

theorem test_halted_takes_no_step :
    stopOf (step { at10 0x1000000000000000 with status := .halted }) = some .halted := by decide

/-! ### Faults: section 2.9 -/

/-- Index 7 of a Program of length 7, and the last index there is. -/
theorem test_program_bounds :
    after { startAt 6 0 with pc := 7 } faultView = some (.faulted, .programBoundsFault, 7, 7, 7) ∧
    after { startAt 6 0 with pc := 0xFFFFFFFF } faultView =
      some (.faulted, .programBoundsFault, 0xFFFFFFFF, 0xFFFFFFFF, 0xFFFFFFFF) := by decide

theorem test_invalid_opcode : after (startAt 3 0) faultView = some (.faulted, .invalidOpcode, 3, 0, 3) := by decide

theorem test_invalid_register :
    after (startAt 3 0x0192300000000000) faultView = some (.faulted, .invalidRegister, 3, 9, 3) := by decide

theorem test_memory_fault_minus_one :
    after (startAt 3 0x0C020000FFFFFFFF) faultView = some (.faulted, .memoryFault, 3, 0xFFFFFFFFFFFFFFFF, 3) := by decide

theorem test_store_fault_writes_nothing :
    after { startAt 3 0x0D17000000000002 with r1 := 6 } (fun t => (t.status, t.faultInfo, t.mem, t.out)) =
      some (.faulted, 0x10000, [], []) := by decide

/-! ### Reset, placing a program, the blocks -/

/-- From the bare reset state, PROG_LEN = 0: section 2.9, first row. -/
theorem test_reset_executes_nothing :
    after State.reset faultView = some (.faulted, .programBoundsFault, 0, 0, 0) := by decide

theorem test_with_fetch_word :
    after (State.reset.withFetchWord 64 0x0B300000FFFFFFFF) (fun t => (t.r3, t.pc)) = some (0xFFFFFFFF, 1) := by decide

/-- R158: reset from a Halted state, the Program kept. -/
theorem test_reset_input :
    Blocks.edge true { at10 0x1000000000000000 with status := .halted, r7 := 1, out := [3], mem := [(5, 6)] } = State.launch (Program.place { len := 0, words := [] } 10 0x1000000000000000) := by decide

/-- R133: a STORE to the port raises the pulse with the value on the data port. -/
theorem test_port_pulse :
    (Blocks.topPorts false { at10 0x0D17000000000001 with r1 := 5 }).ioOutValid = true ∧
    (Blocks.topPorts false { at10 0x0D17000000000001 with r1 := 5 }).ioOutData = 5 := by decide

/-- R132: the blocks' edge writes R3 and advances PC for ADD R1, R2, R3. -/
theorem test_edge_add :
    (Blocks.edge false { at10 0x0112300000000000 with r1 := 3, r2 := 4 }).r3 = 7 ∧
    (Blocks.edge false { at10 0x0112300000000000 with r1 := 3, r2 := 4 }).pc = 11 := by decide

/-- R132, R143: the blocks' edge latches the record of a faulting LOAD. -/
theorem test_edge_fault :
    faultView (Blocks.edge false (startAt 3 0x0C020000FFFFFFFF)) =
      (.faulted, .memoryFault, 3, 0xFFFFFFFFFFFFFFFF, 3) := by decide

/-! ### Witnesses: the hypotheses of each statement can be met, clause by clause, at boundary values -/

/-- A step seen to lead to a state with a property. -/
theorem exists_next {s : State} {P : State → Prop} [DecidablePred P]
    (h : after s (fun t => decide (P t)) = some true) : ∃ t, step s = .next t ∧ P t := by
  unfold after at h
  cases hs : step s with
  | next t => exact ⟨t, rfl, by simpa [hs, nextOf] using h⟩
  | fault f => simp [hs, nextOf] at h
  | refused r => simp [hs, nextOf] at h

/-- An instruction seen to lead to a state with a property. -/
theorem exists_exec {i : Instr} {s : State} {P : State → Prop} [DecidablePred P]
    (h : (nextOf (exec i s)).map (fun t => decide (P t)) = some true) : ∃ t, exec i s = .next t ∧ P t := by
  cases hs : exec i s with
  | next t => exact ⟨t, rfl, by simpa [hs, nextOf] using h⟩
  | fault f => simp [hs, nextOf] at h
  | refused r => simp [hs, nextOf] at h

theorem witness_DecodeOfEncodeIsTheInstruction :
    (Instr.store .pc .r7 (-2147483648)).wf = true ∧ (Instr.const 4294967295 .pc).wf = true := by decide

theorem witness_EncodeOfDecodeIsTheWord : decode 0x0E60000080000000 = .instr (.jmp .r6 (-2147483648)) := by decide

/-- No row matches; a row matches with an offending selector; a row matches with none. -/
theorem witness_DecodeFollowsTheOpcodeTable :
    (∀ row ∈ opcodeTable, row.matchesWord 0x1100000000000000 = false) ∧
    (∃ row ∈ opcodeTable, row.matchesWord 0x0189300000000000 = true ∧
      row.firstBadSelector 0x0189300000000000 = some 9) ∧
    (∃ row ∈ opcodeTable, row.matchesWord 0x0188300000000000 = true ∧ row.firstBadSelector 0x0188300000000000 = none) := by
  decide

theorem witness_OpcodeRowsNeverOverlap :
    ∃ row ∈ opcodeTable, ∃ row' ∈ opcodeTable, row.matchesWord 0x1000000000000000 = true ∧
      row'.matchesWord 0x1000000000000000 = true := by decide

theorem witness_UnencodableOperandsAreReducedOrRefused :
    (-2147483649 : Int) < -(2 ^ 31) ∧ (2 ^ 31 : Int) ≤ 2147483648 ∧ 2 ^ 32 ≤ 4294967296 := by decide

/-- The largest value; the value 2^32 shows the other side. -/
theorem witness_ConstWritesTheImmediate : 4294967295 < 2 ^ 32 ∧ ¬ 4294967296 < 2 ^ 32 := by decide

/-- Both ends of the offset range and of the address range, inside and outside. -/
theorem witness_LoadCopiesTheCellOrFaults :
    ((-(2 ^ 31) : Int) ≤ -2147483648 ∧ (2147483647 : Int) < 2 ^ 31) ∧
    State.effAddr { State.reset with r1 := 0x80000000 } .r1 (-2147483648) = 0 ∧
    State.effAddr State.reset .r0 65535 = 65535 ∧ State.effAddr State.reset .r0 (-1) = -1 ∧
    State.effAddr State.reset .r7 2 = 65536 := by decide

/-- A store to an ordinary cell, at the lowest address, to the port, and just outside on both sides. -/
theorem witness_StoreWritesTheCellAndEmitsOrFaults :
    ((-(2 ^ 31) : Int) ≤ -65534 ∧ (2 : Int) < 2 ^ 31) ∧ State.effAddr State.reset .r7 (-65534) = 0 ∧
    State.effAddr State.reset .r7 1 = 65535 ∧ State.effAddr State.reset .r7 (-65535) = -1 ∧
    State.effAddr State.reset .r7 2 = 65536 := by decide

/-- Also a Running state whose Program ends at the target, so that the next fetch faults. -/
theorem witness_JmpTransfersToBasePlusOffset :
    (-(2 ^ 31) : Int) ≤ 11 ∧ (11 : Int) < 2 ^ 31 ∧ (at10 0).status = .running ∧
    (at10 0).program.len ≤ ((((at10 0).operand .r0 : Int) + 11) % 2 ^ 32).toNat := by decide

/-- A zero and a non-zero tested register, with an encodable offset; the Program ending at i + 1; selector 9. -/
theorem witness_BzTransfersExactlyWhenZero :
    (-(2 ^ 31) : Int) ≤ 2147483647 ∧ (2147483647 : Int) < 2 ^ 31 ∧ State.operand State.reset .r1 = 0 ∧
    State.operand { State.reset with r1 := 0x80000000 } .r1 ≠ 0 ∧
    (∃ t : State, exec (.bz .r0 0) (at10 0) = .next t ∧ (at10 0).program.len ≤ t.pc.toNat) ∧
    8 < (9 : Sel).toNat :=
  ⟨by decide, by decide, by decide, by decide, exists_exec (by decide), by decide⟩

theorem witness_DestinationPcIsATransfer :
    4294967295 < 2 ^ 32 ∧ State.effAddr State.reset .r0 0 = 0 ∧ State.effAddr State.reset .r0 65535 = 65535 ∧
    State.effAddr State.reset .r0 65536 = 65536 ∧ State.effAddr State.reset .r0 (-1) = -1 ∧
    (∃ t : State, exec (.store .pc .pc 0) State.reset = .next t ∧ t.status = .running) :=
  ⟨by decide, by decide, by decide, by decide, by decide, exists_exec (by decide)⟩

theorem witness_StepIsExecOfTheDecodedInstruction :
    (at10 0x0480000000000000).status = .running ∧ (at10 0x0480000000000000).fetch = some 0x0480000000000000 ∧
    decode 0x0480000000000000 = .instr (.dec .pc) := by decide

theorem witness_PlacedInstructionIsTheOneStepRuns :
    State.reset.status = .running ∧ (Instr.load .r1 .pc 2147483647).wf = true := by decide

theorem witness_RunningMachineAlwaysSteps : State.reset.status = .running := by decide

theorem witness_StoppedMachineStaysAsItIs :
    ({ State.reset with status := .halted } : State).status ≠ .running ∧
    ({ State.reset with status := .faulted, faultCause := .invalidOpcode } : State).status ≠ .running := by decide

/-- Each clause: outside the Program; no row; an offending selector; an address outside; an address inside. -/
theorem witness_FirstApplicableFaultIsTaken :
    (State.reset.status = .running ∧ State.reset.program.len ≤ State.reset.pc.toNat) ∧
    ((startAt 3 0).fetch = some 0 ∧ ∀ row ∈ opcodeTable, row.matchesWord 0 = false) ∧
    ((startAt 3 0x0C9A0000FFFFFFFF).fetch = some 0x0C9A0000FFFFFFFF ∧
      ∃ row ∈ opcodeTable, row.matchesWord 0x0C9A0000FFFFFFFF = true ∧
        row.firstBadSelector 0x0C9A0000FFFFFFFF = some 9) ∧
    (decode 0x0D17000000000002 = .instr (.store .r1 .r7 2) ∧ Accesses (.store .r1 .r7 2) .r7 2 ∧
      (startAt 3 0x0D17000000000002).effAddr .r7 2 = 65536) ∧
    (decode 0x0D17000000000001 = .instr (.store .r1 .r7 1) ∧ Accesses (.store .r1 .r7 1) .r7 1 ∧
      (startAt 3 0x0D17000000000001).effAddr .r7 1 = 65535) :=
  ⟨by decide, by decide, by decide, ⟨by decide, .inr ⟨_, rfl⟩, by decide⟩, ⟨by decide, .inr ⟨_, rfl⟩, by decide⟩⟩

theorem witness_FaultingStepCommitsNothing : ∃ s t : State, step s = .next t ∧ t.status = .faulted :=
  ⟨startAt 3 0x0D17000000000002, exists_next (by decide)⟩

/-- A step that halts, and one that neither halts nor faults. -/
theorem witness_OnlyHaltHaltsAndOnlyFaultsRecord :
    (∃ s t : State, step s = .next t ∧ t.status = .halted) ∧ (∃ s t : State, step s = .next t ∧ t.status = .running) :=
  ⟨⟨at10 0x1000000000000000, exists_next (by decide)⟩, ⟨at10 0x0310000000000000, exists_next (by decide)⟩⟩

/-- R1 changes. -/
theorem witness_OnlyTheDestinationRegisterChanges :
    ∃ t : State, step (at10 0x0310000000000000) = .next t ∧
      t.getReg .r1 ≠ (at10 0x0310000000000000).getReg .r1 :=
  exists_next (by decide)

/-- A step that faults; and an INC R1 that completes. -/
theorem witness_PcAdvancesUnlessWrittenOrFaulted :
    (∃ t : State, step (startAt 3 0) = .next t ∧ t.status = .faulted) ∧
    (∃ t : State, step (at10 0x0310000000000000) = .next t ∧ t.status ≠ .faulted) ∧
    Executes (at10 0x0310000000000000) (.inc .r1) ∧ destination (.inc .r1) ≠ some .pc ∧ isTransfer (.inc .r1) = false :=
  ⟨exists_next (by decide), exists_next (by decide), ⟨by decide, by decide⟩, by decide, by decide⟩

/-- Cell 65534 changes, from 0 to 5. -/
theorem witness_CellsChangeOnlyByStores :
    ∃ t : State, step { at10 0x0D17000000000000 with r1 := 5 } = .next t ∧
      t.cell 65534 ≠ ({ at10 0x0D17000000000000 with r1 := 5 } : State).cell 65534 :=
  exists_next (by decide)

/-- A step that emits, and one that does not. -/
theorem witness_OutputGrowsOnlyByPortStores :
    (∃ t : State, step { at10 0x0D17000000000001 with r1 := 5 } = .next t ∧ t.out = [5]) ∧
    (∃ t : State, step { at10 0x0D17000000000000 with r1 := 5 } = .next t ∧ t.out = []) :=
  ⟨exists_next (by decide), exists_next (by decide)⟩

/-- Two steps of a Program that loops. -/
theorem witness_ProgramIsImmutable :
    ∃ t : State, Host.Core.run Sys2Proof.core 2 (startAt 0 0x0480000000000000) = .next t :=
  ⟨_, rfl⟩

theorem witness_OutputIsNotReadable : ∃ s t : State, step s = .next t ∧ t.out = [0] :=
  ⟨at10 0x0D0000000000FFFF, exists_next (by decide)⟩

theorem witness_FaultRecordIsNotReadable : ∃ s t : State, step s = .next t ∧ t.faultCause = .memoryFault :=
  ⟨at10 0x0C020000FFFFFFFF, exists_next (by decide)⟩

/-- STORE R1, R0, 65535 then LOAD R7, R2, 1: both addresses are 65535. -/
theorem witness_StoreThenLoadReadsTheValue :
    State.effAddr State.reset .r0 65535 = 65535 ∧
    ∃ t : State, exec (.store .r1 .r0 65535) State.reset = .next t ∧
      t.effAddr .r7 1 = State.effAddr State.reset .r0 65535 :=
  ⟨by decide, exists_exec (by decide)⟩

/-- A state of the invariant that has emitted 7. -/
theorem witness_PortLoadReadsTheLastOutput :
    State.Inv { State.reset with mem := [(65535, 7)], out := [3, 7] } ∧
    State.effAddr { State.reset with mem := [(65535, 7)], out := [3, 7] } .r0 65535 = 65535 := by decide

theorem witness_SubUndoesAddAndDecUndoesInc :
    (∃ t : State, exec (.add .r1 .r2 .r3) State.reset = .next t ∧ ∃ u, exec (.sub .r3 .r2 .r3) t = .next u) ∧
    (∃ t : State, exec (.inc .r1) State.reset = .next t ∧ ∃ u, exec (.dec .r1) t = .next u) :=
  ⟨⟨_, rfl, _, rfl⟩, ⟨_, rfl, _, rfl⟩⟩

/-- A run of one step that stores to the port. -/
theorem witness_MemoryAndOutputFollowTheStores :
    (∃ t : State, Host.Core.run Sys2Proof.core 1 (startAt 0 0x0D8000000000FFFF) = .next t) ∧
    storeEvents 1 (startAt 0 0x0D8000000000FFFF) = [(65535, 1)] :=
  ⟨⟨_, rfl⟩, by decide⟩

/-- A state of the invariant from which a step is taken, by an instruction and by a fault. -/
theorem witness_StepKeepsTheInvariant :
    (at10 0x0D17000000000001).Inv ∧ (∃ t : State, step (at10 0x0D17000000000001) = .next t ∧ t.status = .running) ∧
    State.reset.Inv ∧ (∃ t : State, step State.reset = .next t ∧ t.status = .faulted) :=
  ⟨by decide, exists_next (by decide), by decide, exists_next (by decide)⟩

/-- The longest Program, with a word at its last index. -/
theorem witness_LaunchStatesMeetTheInvariant :
    Program.wf { len := 4294967296, words := [(4294967295, 0x1000000000000000)] } = true := by decide

/-- The longest Program, at its last index, with a step; and a machine that has stopped. -/
theorem witness_ConnectedBlocksRefineTheStep :
    (startAt 4294967295 0x0F80000000000005).program.len ≤ 2 ^ 32 ∧
    (∃ t : State, step (startAt 4294967295 0x0F80000000000005) = .next t ∧ t.pc = 5) ∧
    stopOf (step { startAt 0 0 with status := .halted }) = some .halted :=
  ⟨by decide, exists_next (by decide), by decide⟩

/-- A step with a pulse and one without. -/
theorem witness_PortPulsesAreTheOutput :
    (at10 0x0D17000000000001).program.len ≤ 2 ^ 32 ∧
    (∃ t : State, step (at10 0x0D17000000000001) = .next t ∧ t.out = [0]) ∧
    (∃ t : State, step (at10 0x0310000000000000) = .next t ∧ t.out = []) :=
  ⟨by decide, exists_next (by decide), exists_next (by decide)⟩

end Sys2Proof.Tests
end

section
/-! SUPPORT. The invariant of the machine is kept: by what touches neither memory, output nor record, by a store, and
by each of the four faults. The step's inversion lemma then gives the law for the step. -/

namespace Sys2Proof

/-! ### InvalidRegister names a selector that names no register (R59, R66) -/

/-- A decoding that is InvalidRegister only with a selector above 8. -/
def Decoded.BadSelectorsAreLarge (d : Decoded) : Prop :=
  ∀ bad, d = .invalidRegister bad → 8 < bad.toNat

theorem badSelectorsAreLarge_instr (i : Instr) : (Decoded.instr i).BadSelectorsAreLarge :=
  fun _ h => nomatch h

theorem badSelectorsAreLarge_withReg {sel : Sel} {k : Reg → Decoded} (hk : ∀ r, (k r).BadSelectorsAreLarge) :
    (withReg sel k).BadSelectorsAreLarge := by
  intro bad h
  rcases selector_cases sel with hlarge | ⟨r, rfl⟩
  · rw [withReg_of_large hlarge] at h
    cases h
    exact hlarge
  · rw [withReg_selOfReg] at h
    exact hk r bad h

theorem badSelectorsAreLarge_buildInstr (o : Opcode) (f : Fields) : (buildInstr o f).BadSelectorsAreLarge := by
  cases o with
  | add | sub | and | or | xor | shl | shr | cmp =>
    exact badSelectorsAreLarge_withReg fun _ => badSelectorsAreLarge_withReg fun _ =>
      badSelectorsAreLarge_withReg fun _ => badSelectorsAreLarge_instr _
  | load | store =>
    exact badSelectorsAreLarge_withReg fun _ => badSelectorsAreLarge_withReg fun _ => badSelectorsAreLarge_instr _
  | inc | dec | const | jmp | bz => exact badSelectorsAreLarge_withReg fun _ => badSelectorsAreLarge_instr _
  | halt => exact badSelectorsAreLarge_instr _

theorem lt_of_decode_eq_invalidRegister {w : IWord} {sel : Sel} (h : decode w = .invalidRegister sel) :
    8 < sel.toNat := by
  unfold decode at h
  split at h
  · cases h
  · split at h
    · exact badSelectorsAreLarge_buildInstr _ _ sel h
    · cases h

end Sys2Proof

namespace Sys2Proof.Machine

/-! ### What a fault record is checked against is left alone by the fault (R141) -/

@[simp] theorem fetch_takeFault (s : State) (c : FaultCause) (info : BitVec 64) :
    (s.takeFault c info).fetch = s.fetch := rfl

@[simp] theorem fetchDecode_takeFault (s : State) (c : FaultCause) (info : BitVec 64) :
    (s.takeFault c info).fetchDecode = s.fetchDecode := rfl

@[simp] theorem effAddr_takeFault (s : State) (c : FaultCause) (info : BitVec 64) (base : Reg) (offset : Int) :
    (s.takeFault c info).effAddr base offset = s.effAddr base offset := by
  cases base <;> rfl

/-! ### The fault information of R143 is read back -/

@[simp] theorem infoOfPc_toNat (pc : Word) : (infoOfPc pc).toNat = pc.toNat :=
  BitVec.toNat_setWidth_of_le (by decide)

@[simp] theorem infoOfSelector_toNat (sel : Sel) : (infoOfSelector sel).toNat = sel.toNat :=
  BitVec.toNat_setWidth_of_le (by decide)

@[simp] theorem infoOfSelector_setWidth (sel : Sel) : (infoOfSelector sel).setWidth 4 = sel := by
  apply BitVec.eq_of_toNat_eq
  simp [Nat.mod_eq_of_lt sel.isLt]

/-- The sum of a 32-bit base and an encodable offset fits the 64-bit record (R140). -/
theorem infoOfAddress_toInt {s : State} {base : Reg} {offset : Int} (he : offsetEncodable offset = true) :
    (infoOfAddress (s.effAddr base offset)).toInt = s.effAddr base offset := by
  have hbase := operand_lt s base
  simp only [offsetEncodable, Bool.and_eq_true, decide_eq_true_eq] at he
  simp only [State.effAddr]
  rw [infoOfAddress, BitVec.toInt_ofInt, Int.bmod_eq_of_le] <;> omega

/-! ### The record -/

/-- Outside status Faulted the record is the one of no fault (R24). -/
theorem recordOk_iff_of_not_faulted {s : State} (hs : s.status ≠ .faulted) :
    s.recordOk = true ↔ s.faultCause = .noFault ∧ s.faultPc = 0 ∧ s.faultInfo = 0 := by
  cases hc : s.faultCause <;> simp [State.recordOk, hc, hs]

theorem programBoundsFault_recordOk {s : State} (hout : s.program.len ≤ s.pc.toNat) :
    s.programBoundsFault.recordOk = true := by
  simp [State.recordOk, State.programBoundsFault, hout]

theorem invalidOpcodeFault_recordOk {s : State} {w : IWord} (hf : s.fetch = some w) (hd : decode w = .invalidOpcode) :
    (s.invalidOpcodeFault w).recordOk = true := by
  simp [State.recordOk, State.invalidOpcodeFault, hf, hd]

theorem invalidRegisterFault_recordOk {s : State} {w : IWord} {sel : Sel} (hf : s.fetch = some w)
    (hd : decode w = .invalidRegister sel) : (s.invalidRegisterFault sel).recordOk = true := by
  have hlarge : 9 ≤ sel.toNat := lt_of_decode_eq_invalidRegister hd
  have hfits : sel.toNat ≤ 15 := Nat.le_of_lt_succ sel.isLt
  have hfd := fetchDecode_of_fetch hf
  simp [State.recordOk, State.invalidRegisterFault, hfd, hd, hlarge, hfits]

theorem memoryFault_recordOk {s : State} {w : IWord} {i : Instr} {base : Reg} {offset : Int} (hf : s.fetch = some w)
    (hd : decode w = .instr i) (hi : Accesses i base offset) (he : offsetEncodable offset = true)
    (hv : addressValid (s.effAddr base offset) = false) : (s.memoryFault (s.effAddr base offset)).recordOk = true := by
  have hfd := fetchDecode_of_fetch hf
  have hinfo := infoOfAddress_toInt (s := s) (base := base) he
  have hout : s.effAddr base offset < 0 ∨ 65535 < s.effAddr base offset := by
    have := mt addressValid_iff.mpr (Bool.eq_false_iff.mp hv)
    omega
  rcases hi with ⟨rd, rfl⟩ | ⟨rs, rfl⟩ <;> simp [State.recordOk, State.memoryFault, hfd, hd, hinfo, hout]

/-! ### The invariant under each effect -/

/-- What leaves memory, output and record alone, and the machine unfaulted, keeps the invariant. -/
theorem State.Inv.of_frame {s t : State} (h : s.Inv) (hs : s.status ≠ .faulted) (ht : t.status ≠ .faulted)
    (hmem : t.mem = s.mem) (hout : t.out = s.out) (hrec : KeepsRecord s t) : t.Inv := by
  obtain ⟨hm, hp, hr, ho⟩ := h
  obtain ⟨hcause, hpc, hinfo, hprog⟩ := hrec
  refine ⟨hmem ▸ hm, hprog ▸ hp, ?_, ?_⟩
  · rw [recordOk_iff_of_not_faulted ht, hcause, hpc, hinfo]
    exact (recordOk_iff_of_not_faulted hs).mp hr
  · simpa [State.portOk, State.cell, hmem, hout] using ho

/-- The port cell follows the output (R39, R40). -/
theorem storeCell_portOk {s : State} (h : s.portOk = true) (a : Nat) (v : Word) : (s.storeCell a v).portOk = true := by
  by_cases ha : a = Config.ioOut
  · simp [State.portOk, cell_storeCell, storeCell_out, ha]
  · simpa [State.portOk, cell_storeCell, storeCell_out, ha, Ne.symm ha] using h

/-- A store to a cell that exists keeps the invariant. -/
theorem State.Inv.storeCell {s : State} (h : s.Inv) (hs : s.status ≠ .faulted) {a : Nat} (ha : a < Config.memCells)
    (v : Word) : (s.storeCell a v).Inv := by
  obtain ⟨hm, hp, hr, ho⟩ := h
  refine ⟨storeCell_wf hm ha v, by rwa [storeCell_program], ?_, storeCell_portOk ho a v⟩
  rw [recordOk_iff_of_not_faulted hs] at hr
  simpa [recordOk_iff_of_not_faulted, hs] using hr

/-- A fault keeps the invariant when what it records is true. -/
theorem State.Inv.takeFault {s : State} (h : s.Inv) {c : FaultCause} {info : BitVec 64}
    (hr : (s.takeFault c info).recordOk = true) : (s.takeFault c info).Inv := by
  obtain ⟨hm, hp, -, ho⟩ := h
  exact ⟨hm, hp, hr, ho⟩

/-- Executing the fetched instruction keeps the invariant. -/
theorem State.Inv.exec {s t : State} {w : IWord} {i : Instr} (h : s.Inv) (hs : s.status = .running)
    (hf : s.fetch = some w) (hd : decode w = .instr i) (he : exec i s = .next t) : t.Inv := by
  have hnf : s.status ≠ .faulted := by simp [hs]
  cases exec_effect he with
  | register rd v => exact h.of_frame hnf (by simp [hs]) (by simp) (by simp) (by simp [KeepsRecord])
  | transfer target => exact h.of_frame hnf hnf rfl rfl ⟨rfl, rfl, rfl, rfl⟩
  | store rs rd offset _ hv =>
    have hinc : s.preIncrement.Inv := h.of_frame hnf hnf rfl rfl ⟨rfl, rfl, rfl, rfl⟩
    exact hinc.storeCell hnf (addressValid_toNat_lt hv) _
  | halt => exact h.of_frame hnf (by simp) rfl rfl ⟨rfl, rfl, rfl, rfl⟩
  | memoryFault base offset hi hoff hv => exact h.takeFault (memoryFault_recordOk hf hd hi hoff hv)

/-- Settles O45: the step's effects are three faults of fetch and decode, whose records are true, and the decoded
instruction, which keeps the invariant. -/
theorem stepKeepsTheInvariant : Obligations.StepKeepsTheInvariant := by
  intro s t hinv hstep
  obtain ⟨hs, heffect⟩ := step_effect hstep
  cases heffect with
  | bounds hout _ => exact hinv.takeFault (programBoundsFault_recordOk hout)
  | opcode w hf hd => exact hinv.takeFault (invalidOpcodeFault_recordOk hf hd)
  | selector w sel hf hd => exact hinv.takeFault (invalidRegisterFault_recordOk hf hd)
  | executes w i t hf hd he => exact hinv.exec hs hf hd he

end Sys2Proof.Machine
end

section
/-! SUPPORT. Reset. The bare reset state and the state after an edge with reset are both launch states (R158, R164), so
the values R154 states are shown once, for a launch state with any Program. -/

namespace Sys2Proof.Machine

/-! ### Reset is a launch -/

theorem reset_eq_launch : State.reset = State.launch { len := 0, words := [] } := rfl

/-- The reset input launches the Program in place (R122, R124). -/
@[simp] theorem edge_true (s : State) : Blocks.edge true s = State.launch s.program := rfl

/-! ### What a launch state holds (R31, R154) -/

theorem getReg_launch (p : Program) {r : Reg} (hr : r ≠ .r7) : (State.launch p).getReg r = 0 := by
  cases r with
  | r7 => exact absurd rfl hr
  | r0 | r1 | r2 | r3 | r4 | r5 | r6 | pc => rfl

@[simp] theorem cell_launch (p : Program) (a : Nat) : (State.launch p).cell a = 0 := rfl

/-- Settles O47: each of the two states is a launch state, whose registers and cells are read off by the laws above and
whose other fields are literal. -/
theorem resetLeavesTheStatedValues : Obligations.ResetLeavesTheStatedValues := by
  intro s t ht
  obtain ⟨p, rfl⟩ : ∃ p, t = State.launch p := by
    rcases List.mem_pair.mp ht with rfl | rfl
    · exact ⟨_, reset_eq_launch⟩
    · exact ⟨_, edge_true s⟩
  exact ⟨fun _ hr => getReg_launch p hr, rfl, rfl, cell_launch p, rfl, rfl, rfl, rfl, rfl⟩

end Sys2Proof.Machine
end

section
/-! SUPPORT. Decode against the opcode table (R64): the register fields of a row are the operand fields of its format,
and the decoder walks them in that order, so that the first one above 8 is the fault it names. -/

namespace Sys2Proof

/-! ### The operand selectors of a format (R57) -/

/-- The selectors that carry operands, in the order `r1`, `r2`, `r3`. -/
def Format.selectors : Format → Fields → List Sel
  | .rrr, f => [f.r1, f.r2, f.r3]
  | .rri, f => [f.r1, f.r2]
  | .r, f | .ri, f => [f.r1]
  | .n, _ => []

/-- The first selector that names no register. -/
def firstLarge (sels : List Sel) : Option Sel :=
  sels.find? fun sel => decide (8 < sel.toNat)

@[simp] theorem firstLarge_nil : firstLarge [] = none := rfl

theorem firstLarge_cons_of_large {sel : Sel} (h : 8 < sel.toNat) (sels : List Sel) :
    firstLarge (sel :: sels) = some sel := by
  simp [firstLarge, h]

@[simp] theorem firstLarge_cons_selOfReg (r : Reg) (sels : List Sel) :
    firstLarge (selOfReg r :: sels) = firstLarge sels := by
  simp [firstLarge, selOfReg_le]

/-- A row's register fields are the operand selectors of its format. -/
theorem firstBadSelector_eq {row : TableRow} (h : row ∈ opcodeTable) (w : IWord) :
    row.firstBadSelector w = firstLarge (row.opcode.format.selectors (fieldsOf w)) := by
  simp only [opcodeTable, List.mem_cons, List.not_mem_nil, or_false] at h
  rcases h with rfl | rfl | rfl | rfl | rfl | rfl | rfl | rfl | rfl | rfl | rfl | rfl | rfl | rfl | rfl | rfl <;> rfl

/-! ### Steps 3 and 4 of R64 -/

/-- A decoding as steps 3 and 4 of R64 say: InvalidRegister of the first selector above 8, or with none an instruction
of opcode `o` whose word is `w`. -/
def Decoded.FollowsSelectors (o : Opcode) (w : IWord) (sels : List Sel) (d : Decoded) : Prop :=
  (∀ sel, firstLarge sels = some sel → d = .invalidRegister sel) ∧
  (firstLarge sels = none → ∃ i, d = .instr i ∧ i.opcode = o ∧ encode i = w)

theorem followsSelectors_instr {o : Opcode} {w : IWord} {i : Instr} (ho : i.opcode = o) (he : encode i = w) :
    (Decoded.instr i).FollowsSelectors o w [] :=
  ⟨fun _ h => (nomatch h), fun _ => ⟨i, rfl, ho, he⟩⟩

/-- One operand: its selector is the fault, or names the register with which the rest follows. -/
theorem followsSelectors_withReg {o : Opcode} {w : IWord} {sel : Sel} {sels : List Sel} {k : Reg → Decoded}
    (hk : ∀ r, sel = selOfReg r → (k r).FollowsSelectors o w sels) :
    (withReg sel k).FollowsSelectors o w (sel :: sels) := by
  rcases selector_cases sel with hlarge | ⟨r, rfl⟩
  · simp [Decoded.FollowsSelectors, withReg_of_large hlarge, firstLarge_cons_of_large hlarge]
  · simpa [Decoded.FollowsSelectors] using hk r rfl

/-- Three register operands, format RRR. -/
theorem followsSelectors_rrr {o : Opcode} {r1 r2 r3 : Sel} {imm : Word} {mk : Reg → Reg → Reg → Instr}
    (ho : ∀ ra rb rd, (mk ra rb rd).opcode = o)
    (he : ∀ ra rb rd, encode (mk ra rb rd) = assemble o (selOfReg ra) (selOfReg rb) (selOfReg rd) imm) :
    (withReg r1 fun ra => withReg r2 fun rb => withReg r3 fun rd => .instr (mk ra rb rd)).FollowsSelectors o
      (assemble o r1 r2 r3 imm) [r1, r2, r3] := by
  refine followsSelectors_withReg fun ra h1 => followsSelectors_withReg fun rb h2 =>
    followsSelectors_withReg fun rd h3 => ?_
  subst h1 h2 h3
  exact followsSelectors_instr (ho ra rb rd) (he ra rb rd)

/-- Two register operands, format RRI. -/
theorem followsSelectors_rri {o : Opcode} {r1 r2 : Sel} {imm : Word} {mk : Reg → Reg → Instr}
    (ho : ∀ ra rb, (mk ra rb).opcode = o)
    (he : ∀ ra rb, encode (mk ra rb) = assemble o (selOfReg ra) (selOfReg rb) 0 imm) :
    (withReg r1 fun ra => withReg r2 fun rb => .instr (mk ra rb)).FollowsSelectors o
      (assemble o r1 r2 0 imm) [r1, r2] := by
  refine followsSelectors_withReg fun ra h1 => followsSelectors_withReg fun rb h2 => ?_
  subst h1 h2
  exact followsSelectors_instr (ho ra rb) (he ra rb)

/-- One register operand, formats R and RI. -/
theorem followsSelectors_r {o : Opcode} {r1 : Sel} {imm : Word} {mk : Reg → Instr} (ho : ∀ ra, (mk ra).opcode = o)
    (he : ∀ ra, encode (mk ra) = assemble o (selOfReg ra) 0 0 imm) :
    (withReg r1 fun ra => .instr (mk ra)).FollowsSelectors o (assemble o r1 0 0 imm) [r1] := by
  refine followsSelectors_withReg fun ra h1 => ?_
  subst h1
  exact followsSelectors_instr (ho ra) (he ra)

/-- The decoder's last steps, opcode by opcode, on fields whose must-be-zero ones are zero (R63). -/
theorem buildInstr_followsSelectors (o : Opcode) {f : Fields} (hz : unusedZero o.format f = true) :
    (buildInstr o f).FollowsSelectors o (assemble o f.r1 f.r2 f.r3 f.imm) (o.format.selectors f) := by
  obtain ⟨op, r1, r2, r3, rsv, imm⟩ := f
  cases o with
  | add | sub | and | or | xor | shl | shr | cmp =>
    simp only [unusedZero, Opcode.format, Bool.and_eq_true, beq_iff_eq] at hz
    obtain ⟨-, rfl⟩ := hz
    exact followsSelectors_rrr (fun _ _ _ => rfl) (fun _ _ _ => rfl)
  | inc | dec =>
    simp only [unusedZero, Opcode.format, Bool.and_eq_true, beq_iff_eq] at hz
    obtain ⟨-, ⟨rfl, rfl⟩, rfl⟩ := hz
    exact followsSelectors_r (fun _ => rfl) (fun _ => rfl)
  | const | jmp | bz =>
    simp only [unusedZero, Opcode.format, Bool.and_eq_true, beq_iff_eq] at hz
    obtain ⟨-, rfl, rfl⟩ := hz
    exact followsSelectors_r (fun _ => rfl) (fun _ => by simp [encode])
  | load | store =>
    simp only [unusedZero, Opcode.format, Bool.and_eq_true, beq_iff_eq] at hz
    obtain ⟨-, rfl⟩ := hz
    exact followsSelectors_rri (fun _ _ => rfl) (fun _ _ => by simp [encode])
  | halt =>
    simp only [unusedZero, Opcode.format, Bool.and_eq_true, beq_iff_eq] at hz
    obtain ⟨-, ⟨⟨rfl, rfl⟩, rfl⟩, rfl⟩ := hz
    exact followsSelectors_instr rfl rfl

/-! ### The whole of R64 -/

theorem rsv_eq_zero_of_unusedZero {fmt : Format} {f : Fields} (hz : unusedZero fmt f = true) : f.rsv = 0 := by
  simp only [unusedZero, Bool.and_eq_true, beq_iff_eq] at hz
  exact hz.1

/-- A word that matches a row decodes as steps 3 and 4 of R64 say. -/
theorem decode_followsSelectors {row : TableRow} (h : row ∈ opcodeTable) {w : IWord} (hm : row.matchesWord w = true) :
    (decode w).FollowsSelectors row.opcode w (row.opcode.format.selectors (fieldsOf w)) := by
  obtain ⟨hop, hz⟩ := (matchesWord_iff h w).mp hm
  have hbuilt := buildInstr_followsSelectors row.opcode hz
  rwa [← decode_of_matchesWord h hm, ← word_eq_assemble hop (rsv_eq_zero_of_unusedZero hz)] at hbuilt

/-- A word that matches no row is no instruction: its opcode byte names none, or the row of that opcode fails on a
must-be-zero field (R64, steps 1 and 2). -/
theorem decode_of_no_row {w : IWord} (h : ∀ row ∈ opcodeTable, row.matchesWord w = false) :
    decode w = .invalidOpcode := by
  cases ho : opcodeOfByte (fieldsOf w).op with
  | none => simp [decode, ho]
  | some o =>
    obtain ⟨row, hrow, rfl⟩ := exists_row o
    have hz : unusedZero row.opcode.format (fieldsOf w) ≠ true := fun hz =>
      Bool.eq_false_iff.mp (h row hrow) ((matchesWord_iff hrow w).mpr ⟨opcodeOfByte_eq_some ho, hz⟩)
    simp [decode, ho, hz]

/-- Settles O4: without a row by `decode_of_no_row`, and with one by the walk over the row's register fields. -/
theorem decodeFollowsTheOpcodeTable : Obligations.DecodeFollowsTheOpcodeTable := by
  intro w
  refine ⟨decode_of_no_row, fun row hrow hm => ?_⟩
  rw [firstBadSelector_eq hrow]
  exact decode_followsSelectors hrow hm

end Sys2Proof
end

section
/-! SUPPORT. Operands without an encoding (R62): a CONST value is reduced by its 32-bit field, and an offset outside
the field's range is refused before anything of the instruction is done. -/

namespace Sys2Proof

theorem valueEncodable_iff {value : Nat} : valueEncodable value = true ↔ value < 2 ^ 32 :=
  decide_eq_true_iff

theorem offsetEncodable_iff {offset : Int} : offsetEncodable offset = true ↔ -(2 ^ 31) ≤ offset ∧ offset < 2 ^ 31 := by
  rw [offsetEncodable, Bool.and_eq_true, decide_eq_true_iff, decide_eq_true_iff]

end Sys2Proof

namespace Sys2Proof.Machine

theorem immediateWord_mod (value : Nat) : immediateWord (value % 2 ^ 32) = immediateWord value :=
  BitVec.eq_of_toNat_eq (by simp [immediateWord])

/-- CONST reads its value only through its field (R108). -/
theorem execConst_mod (value : Nat) (rd : Reg) (s : State) :
    execConst (value % 2 ^ 32) rd s = execConst value rd s := by
  rw [execConst, execConst, immediateWord_mod]

/-- An offset outside the range is refused, whatever the instruction would do with it. -/
theorem withOffset_of_outside {offset : Int} (h : offset < -(2 ^ 31) ∨ 2 ^ 31 ≤ offset) (k : StepOutcome) :
    withOffset offset k = .refused .offsetNotEncodable := by
  have hne : ¬ offsetEncodable offset = true := by
    rw [offsetEncodable_iff]
    omega
  exact if_neg hne

/-- Settles O7: CONST by `execConst_mod`, and the four instructions with an offset check it
first, by `withOffset`. -/
theorem unencodableOperandsAreReducedOrRefused : Obligations.UnencodableOperandsAreReducedOrRefused := by
  refine ⟨fun value rd s => ⟨(execConst_mod value rd s).symm, ?_, fun hlarge => ?_⟩,
    fun a b offset i hi => ?_, fun a b offset s hout => ?_⟩
  · exact valueEncodable_iff.mpr (Nat.mod_lt value (by decide))
  · exact Bool.eq_false_iff.mpr (mt valueEncodable_iff.mp (Nat.not_lt.mpr hlarge))
  · have hwf : i.wf = offsetEncodable offset := by
      simp only [List.mem_cons, List.not_mem_nil, or_false] at hi
      rcases hi with rfl | rfl | rfl | rfl <;> rfl
    rw [hwf, offsetEncodable_iff]
  · exact ⟨withOffset_of_outside hout _, withOffset_of_outside hout _, withOffset_of_outside hout _,
      withOffset_of_outside hout _⟩

end Sys2Proof.Machine
end

section
/-! SUPPORT. ADD, SUB, INC, DEC (41_arithmetic.md): the encoding of the formats RRR and R, the four ALU functions as
arithmetic on numbers modulo 2^32 (R93), and each instruction as its operand form over its function. -/

namespace Sys2Proof.Machine

/-! ### The encoding of a format, both ways (R56, R57, R63) -/

/-- An instruction whose word is assembled from fields that build it has that word's number, both ways. -/
theorem encodedAs_of_assemble {i : Instr} {o : Opcode} {r1 r2 r3 : Sel} {imm : Word}
    (he : encode i = assemble o r1 r2 r3 imm) (hz : unusedZero o.format ⟨byteOfOpcode o, r1, r2, r3, 0, imm⟩ = true)
    (hb : buildInstr o ⟨byteOfOpcode o, r1, r2, r3, 0, imm⟩ = .instr i) :
    EncodedAs i (wordNumber (byteOfOpcode o).toNat r1.toNat r2.toNat r3.toNat imm.toNat) := by
  have hdecode : decode (assemble o r1 r2 r3 imm) = .instr i := by
    simp only [decode, fieldsOf_assemble, opcodeOfByte_byteOfOpcode, hz, if_true, hb]
  rw [← assemble_toNat]
  exact ⟨congrArg BitVec.toNat he, by rwa [BitVec.ofNat_toNat, BitVec.setWidth_eq]⟩

/-- Three register operands, format RRR. -/
theorem encodedAs_rrr (mk : Reg → Reg → Reg → Instr) {o : Opcode} (hfmt : o.format = .rrr)
    (he : ∀ ra rb rd, encode (mk ra rb rd) = assemble o (selOfReg ra) (selOfReg rb) (selOfReg rd) 0)
    (hb : ∀ f, buildInstr o f =
      withReg f.r1 fun ra => withReg f.r2 fun rb => withReg f.r3 fun rd => .instr (mk ra rb rd))
    (ra rb rd : Reg) : EncodedAs (mk ra rb rd) (wordNumber (byteOfOpcode o).toNat ra.num rb.num rd.num 0) := by
  have h := encodedAs_of_assemble (he ra rb rd) (by rw [hfmt]; rfl) (by simp only [hb, withReg_selOfReg])
  rwa [selOfReg_toNat, selOfReg_toNat, selOfReg_toNat] at h

/-- One register operand, format R. -/
theorem encodedAs_r (mk : Reg → Instr) {o : Opcode} (hfmt : o.format = .r)
    (he : ∀ ra, encode (mk ra) = assemble o (selOfReg ra) 0 0 0)
    (hb : ∀ f, buildInstr o f = withReg f.r1 fun ra => .instr (mk ra)) (ra : Reg) :
    EncodedAs (mk ra) (wordNumber (byteOfOpcode o).toNat ra.num 0 0 0) := by
  have h := encodedAs_of_assemble (he ra) (by rw [hfmt]; rfl) (by simp only [hb, withReg_selOfReg])
  rwa [selOfReg_toNat] at h

/-! ### The ALU's arithmetic on numbers (R93) -/

theorem addWord_toNat (a b : Word) : (addWord a b).toNat = (a.toNat + b.toNat) % 2 ^ 32 :=
  BitVec.toNat_add a b

/-- The two cases of R95: without and with a borrow. -/
theorem subWord_toNat (a b : Word) :
    (subWord a b).toNat = if b.toNat ≤ a.toNat then a.toNat - b.toNat else a.toNat + 2 ^ 32 - b.toNat := by
  have ha := a.isLt
  have hb := b.isLt
  rw [subWord, BitVec.toNat_sub]
  split <;> omega

/-- INC is ADD of 1. -/
theorem incWord_toNat (a : Word) : (incWord a).toNat = (a.toNat + 1) % 2 ^ 32 :=
  addWord_toNat a 1

/-- DEC is SUB of 1, which borrows from 0 only. -/
theorem decWord_toNat (a : Word) : (decWord a).toNat = if a.toNat = 0 then 2 ^ 32 - 1 else a.toNat - 1 := by
  have hsub : (decWord a).toNat = if 1 ≤ a.toNat then a.toNat - 1 else a.toNat + 2 ^ 32 - 1 := subWord_toNat a 1
  rw [hsub]
  split <;> split <;> omega

/-! ### The meanings as operand forms -/

theorem exec_add (ra rb rd : Reg) (s : State) : exec (.add ra rb rd) s = binaryOp addWord ra rb rd s := rfl

theorem exec_sub (ra rb rd : Reg) (s : State) : exec (.sub ra rb rd) s = binaryOp subWord ra rb rd s := rfl

theorem exec_inc (ra : Reg) (s : State) : exec (.inc ra) s = unaryOp incWord ra s := rfl

theorem exec_dec (ra : Reg) (s : State) : exec (.dec ra) s = unaryOp decWord ra s := rfl

/-! ### The statements -/

/-- Settles O8: ADD is the three-register form over `addWord`. -/
theorem addWritesTheSumModulo : Obligations.AddWritesTheSumModulo := by
  intro ra rb rd s
  refine ⟨encodedAs_rrr .add rfl (fun _ _ _ => rfl) (fun _ => rfl) ra rb rd, ?_⟩
  have h := binaryOp_effect addWord ra rb rd s
  rwa [addWord_toNat, preIncrement_getReg_toNat, preIncrement_getReg_toNat, ← exec_add] at h

/-- Settles O9: SUB is the three-register form over `subWord`. -/
theorem subWritesTheDifferenceModulo : Obligations.SubWritesTheDifferenceModulo := by
  intro ra rb rd s
  refine ⟨encodedAs_rrr .sub rfl (fun _ _ _ => rfl) (fun _ => rfl) ra rb rd, ?_⟩
  have h := binaryOp_effect subWord ra rb rd s
  rwa [subWord_toNat, preIncrement_getReg_toNat, preIncrement_getReg_toNat, ← exec_sub] at h

/-- Settles O10: INC is the one-register form over `incWord`. -/
theorem incWritesTheSuccessorModulo : Obligations.IncWritesTheSuccessorModulo := by
  intro ra s
  refine ⟨encodedAs_r .inc rfl (fun _ => rfl) (fun _ => rfl) ra, ?_⟩
  have h := unaryOp_effect incWord ra s
  rwa [incWord_toNat, preIncrement_getReg_toNat, ← exec_inc] at h

/-- Settles O11: DEC is the one-register form over `decWord`. -/
theorem decWritesThePredecessorModulo : Obligations.DecWritesThePredecessorModulo := by
  intro ra s
  refine ⟨encodedAs_r .dec rfl (fun _ => rfl) (fun _ => rfl) ra, ?_⟩
  have h := unaryOp_effect decWord ra s
  rwa [decWord_toNat, preIncrement_getReg_toNat, ← exec_dec] at h

end Sys2Proof.Machine
end

section
/-! SUPPORT. AND, OR, XOR, SHL, SHR, CMP (42_logic_shift_compare.md): the three logic functions bit by bit, the two
shifts as multiplication and division by a power of two with the full 32-bit count (R103), the comparison as equality
of numbers, and each instruction as the three-register form over its function. -/

namespace Sys2Proof.Machine

/-! ### The logic functions bit by bit (R100 to R102) -/

theorem andWord_testBit (a b : Word) (k : Nat) :
    (andWord a b).toNat.testBit k = (a.toNat.testBit k && b.toNat.testBit k) := by
  rw [andWord, BitVec.toNat_and, Nat.testBit_and]

theorem orWord_testBit (a b : Word) (k : Nat) :
    (orWord a b).toNat.testBit k = (a.toNat.testBit k || b.toNat.testBit k) := by
  rw [orWord, BitVec.toNat_or, Nat.testBit_or]

theorem xorWord_testBit (a b : Word) (k : Nat) :
    (xorWord a b).toNat.testBit k = (a.toNat.testBit k != b.toNat.testBit k) := by
  rw [xorWord, BitVec.toNat_xor, Nat.testBit_xor]

/-- Everything a three-register form does when its function computes each bit from the same bit of both sources. -/
theorem binaryOp_bitwise {f : Word → Word → Word} {bit : Bool → Bool → Bool}
    (hf : ∀ a b k, (f a b).toNat.testBit k = bit (a.toNat.testBit k) (b.toNat.testBit k)) (ra rb rd : Reg) (s : State) :
    ∃ t v, binaryOp f ra rb rd s = .next t ∧ WritesResult s t rd v ∧ v < 2 ^ 32 ∧
      ∀ k, k < 32 → v.testBit k = bit ((s.operand ra).testBit k) ((s.operand rb).testBit k) := by
  obtain ⟨t, hexec, hwrites⟩ := binaryOp_effect f ra rb rd s
  refine ⟨t, _, hexec, hwrites, BitVec.isLt _, fun k _ => ?_⟩
  rw [hf, preIncrement_getReg_toNat, preIncrement_getReg_toNat]

/-! ### The shifts and the comparison on numbers (R104 to R106) -/

/-- The two cases of R104: a count of 32 or more clears, a smaller one multiplies. -/
theorem shlWord_toNat (a n : Word) :
    (shlWord a n).toNat = if 32 ≤ n.toNat then 0 else (a.toNat * 2 ^ n.toNat) % 2 ^ 32 := by
  unfold shlWord
  split
  · rfl
  · rw [BitVec.toNat_shiftLeft, Nat.shiftLeft_eq]

/-- The two cases of R105: a count of 32 or more clears, a smaller one divides, rounding down. -/
theorem shrWord_toNat (a n : Word) :
    (shrWord a n).toNat = if 32 ≤ n.toNat then 0 else a.toNat / 2 ^ n.toNat := by
  unfold shrWord
  split
  · rfl
  · rw [BitVec.toNat_ushiftRight, Nat.shiftRight_eq_div_pow]

/-- Words are equal exactly when their numbers are. -/
theorem cmpWord_toNat (a b : Word) : (cmpWord a b).toNat = if a.toNat = b.toNat then 1 else 0 := by
  simp only [cmpWord, BitVec.toNat_inj]
  split <;> rfl

/-! ### The meanings as operand forms -/

theorem exec_and (ra rb rd : Reg) (s : State) : exec (.and ra rb rd) s = binaryOp andWord ra rb rd s := rfl

theorem exec_or (ra rb rd : Reg) (s : State) : exec (.or ra rb rd) s = binaryOp orWord ra rb rd s := rfl

theorem exec_xor (ra rb rd : Reg) (s : State) : exec (.xor ra rb rd) s = binaryOp xorWord ra rb rd s := rfl

theorem exec_shl (ra rb rd : Reg) (s : State) : exec (.shl ra rb rd) s = binaryOp shlWord ra rb rd s := rfl

theorem exec_shr (ra rb rd : Reg) (s : State) : exec (.shr ra rb rd) s = binaryOp shrWord ra rb rd s := rfl

theorem exec_cmp (ra rb rd : Reg) (s : State) : exec (.cmp ra rb rd) s = binaryOp cmpWord ra rb rd s := rfl

/-! ### The statements -/

/-- Settles O12: AND is the three-register form over `andWord`, which is bitwise. -/
theorem andSetsBitsSetInBoth : Obligations.AndSetsBitsSetInBoth := by
  intro ra rb rd s
  refine ⟨encodedAs_rrr .and rfl (fun _ _ _ => rfl) (fun _ => rfl) ra rb rd, ?_⟩
  rw [exec_and]
  exact binaryOp_bitwise andWord_testBit ra rb rd s

/-- Settles O13: OR is the three-register form over `orWord`, which is bitwise. -/
theorem orSetsBitsSetInEither : Obligations.OrSetsBitsSetInEither := by
  intro ra rb rd s
  refine ⟨encodedAs_rrr .or rfl (fun _ _ _ => rfl) (fun _ => rfl) ra rb rd, ?_⟩
  rw [exec_or]
  exact binaryOp_bitwise orWord_testBit ra rb rd s

/-- Settles O14: XOR is the three-register form over `xorWord`, which is bitwise. -/
theorem xorSetsBitsThatDiffer : Obligations.XorSetsBitsThatDiffer := by
  intro ra rb rd s
  refine ⟨encodedAs_rrr .xor rfl (fun _ _ _ => rfl) (fun _ => rfl) ra rb rd, ?_⟩
  rw [exec_xor]
  exact binaryOp_bitwise xorWord_testBit ra rb rd s

/-- Settles O15: SHL is the three-register form over `shlWord`. -/
theorem shlMultipliesByThePowerModulo : Obligations.ShlMultipliesByThePowerModulo := by
  intro ra rb rd s
  refine ⟨encodedAs_rrr .shl rfl (fun _ _ _ => rfl) (fun _ => rfl) ra rb rd, ?_⟩
  have h := binaryOp_effect shlWord ra rb rd s
  rwa [shlWord_toNat, preIncrement_getReg_toNat, preIncrement_getReg_toNat, ← exec_shl] at h

/-- Settles O16: SHR is the three-register form over `shrWord`. -/
theorem shrDividesByThePower : Obligations.ShrDividesByThePower := by
  intro ra rb rd s
  refine ⟨encodedAs_rrr .shr rfl (fun _ _ _ => rfl) (fun _ => rfl) ra rb rd, ?_⟩
  have h := binaryOp_effect shrWord ra rb rd s
  rwa [shrWord_toNat, preIncrement_getReg_toNat, preIncrement_getReg_toNat, ← exec_shr] at h

/-- Settles O17: CMP is the three-register form over `cmpWord`. -/
theorem cmpWritesExactlyZeroOrOne : Obligations.CmpWritesExactlyZeroOrOne := by
  intro ra rb rd s
  refine ⟨encodedAs_rrr .cmp rfl (fun _ _ _ => rfl) (fun _ => rfl) ra rb rd, ?_⟩
  have h := binaryOp_effect cmpWord ra rb rd s
  rwa [cmpWord_toNat, preIncrement_getReg_toNat, preIncrement_getReg_toNat, ← exec_cmp] at h

end Sys2Proof.Machine
end

section
/-! SUPPORT. CONST, LOAD, STORE (43_const_load_store.md): the encoding of an immediate and of the format RRI, each
instruction's meaning with its address inside data memory and outside it, and everything a store does (R110). -/

namespace Sys2Proof.Machine

/-! ### The encoding of an immediate and of an offset, both ways (R60 to R63) -/

/-- CONST's field holds an encodable value as it stands (R60). -/
theorem encodedAs_const {value : Nat} (h : value < 2 ^ 32) (rd : Reg) :
    EncodedAs (.const value rd) (wordNumber (byteOfOpcode .const).toNat rd.num 0 0 value) := by
  have hfield := toNat_ofNat_of_encodable (valueEncodable_iff.mpr h)
  have henc := encodedAs_of_assemble (i := .const value rd) (o := .const) rfl rfl
    (by rw [buildInstr, withReg_selOfReg, hfield])
  rwa [selOfReg_toNat, hfield] at henc

/-- The field of an offset is its two's complement number (R61). -/
theorem ofInt_toNat_eq_offsetField (offset : Int) : (BitVec.ofInt 32 offset).toNat = offsetField offset :=
  BitVec.toNat_ofInt offset

/-- Two register operands and an encodable offset, format RRI. -/
theorem encodedAs_rri (mk : Reg → Reg → Int → Instr) {o : Opcode} (hfmt : o.format = .rri)
    (he : ∀ ra rb offset, encode (mk ra rb offset) = assemble o (selOfReg ra) (selOfReg rb) 0 (BitVec.ofInt 32 offset))
    (hb : ∀ f, buildInstr o f = withReg f.r1 fun ra => withReg f.r2 fun rb => .instr (mk ra rb f.imm.toInt))
    {offset : Int} (hoff : offsetEncodable offset = true) (ra rb : Reg) :
    EncodedAs (mk ra rb offset) (wordNumber (byteOfOpcode o).toNat ra.num rb.num 0 (offsetField offset)) := by
  have h := encodedAs_of_assemble (he ra rb offset) (by rw [hfmt]; rfl)
    (by simp only [hb, withReg_selOfReg, toInt_ofInt_of_encodable hoff])
  rwa [selOfReg_toNat, selOfReg_toNat, ofInt_toNat_eq_offsetField] at h

/-! ### Addresses outside data memory (R34) -/

theorem addressValid_eq_false_iff {ea : Int} : addressValid ea = false ↔ ea < 0 ∨ 65535 < ea := by
  rw [Bool.eq_false_iff, Ne, addressValid_iff]
  omega

/-- Everything a MemoryFault does (R140, R141). -/
theorem memoryFault_takesFault (s : State) (ea : Int) :
    TakesFault s (s.memoryFault ea) .memoryFault (BitVec.ofInt 64 ea) :=
  takeFault_takesFault s .memoryFault (infoOfAddress ea)

/-! ### The meanings, inside data memory and outside -/

theorem exec_const (value : Nat) (rd : Reg) (s : State) :
    exec (.const value rd) s = .next (s.preIncrement.setReg rd (immediateWord value)) := rfl

theorem immediateWord_toNat (value : Nat) : (immediateWord value).toNat = value % 2 ^ 32 :=
  BitVec.toNat_ofNat value 32

section
variable {rs rd : Reg} {offset : Int} {s : State}

theorem exec_load_of_valid (hoff : offsetEncodable offset = true) (hv : addressValid (s.effAddr rs offset) = true) :
    exec (.load rs rd offset) s = .next (s.preIncrement.setReg rd (s.cell (s.effAddr rs offset).toNat)) := by
  rw [exec, execLoad, withOffset_of_encodable hoff, addressOperand_eq, memRead_of_valid hv, cell_preIncrement]

theorem exec_load_of_invalid (hoff : offsetEncodable offset = true) (hv : addressValid (s.effAddr rs offset) = false) :
    exec (.load rs rd offset) s = .next (s.memoryFault (s.effAddr rs offset)) := by
  rw [exec, execLoad, withOffset_of_encodable hoff, addressOperand_eq, memRead_of_invalid hv]

theorem exec_store_of_valid (hoff : offsetEncodable offset = true) (hv : addressValid (s.effAddr rd offset) = true) :
    exec (.store rs rd offset) s =
      .next (s.preIncrement.storeCell (s.effAddr rd offset).toNat (s.preIncrement.getReg rs)) := by
  rw [exec, execStore, withOffset_of_encodable hoff, addressOperand_eq, memWrite_of_valid hv]

theorem exec_store_of_invalid (hoff : offsetEncodable offset = true) (hv : addressValid (s.effAddr rd offset) = false) :
    exec (.store rs rd offset) s = .next (s.memoryFault (s.effAddr rd offset)) := by
  rw [exec, execStore, withOffset_of_encodable hoff, addressOperand_eq, memWrite_of_invalid hv]

end

/-! ### Everything a store after the pre-increment does -/

/-- A register read in the execute phase is the word of `operand`. -/
theorem preIncrement_getReg_eq_ofNat (s : State) (r : Reg) : s.preIncrement.getReg r = BitVec.ofNat 32 (s.operand r) := by
  rw [← preIncrement_getReg_toNat, BitVec.ofNat_toNat, BitVec.setWidth_eq]

section
variable (s : State) (a : Nat) (v : Word)

theorem storeCell_keepsRegs : KeepsRegs s (s.preIncrement.storeCell a v) := by
  intro r hpc
  rw [storeCell_getReg, getReg_preIncrement hpc]

theorem storeCell_advances : PcAdvances s (s.preIncrement.storeCell a v) := by
  rw [PcAdvances, storeCell_pc]
  exact preIncrement_advances s

/-- The one cell a store at an address changes is the one with that number. -/
theorem storeCell_keepsMemoryBut {ea : Int} (hea : 0 ≤ ea) :
    KeepsMemoryBut s (s.preIncrement.storeCell ea.toNat v) ea := by
  intro b hb
  rw [cell_storeCell, if_neg (by omega), cell_preIncrement]

/-- A store at an address emits exactly at 65535 (R39). -/
theorem storeCell_out_of_address (ea : Int) :
    (s.preIncrement.storeCell ea.toNat v).out = if ea = 65535 then s.out ++ [v] else s.out := by
  have hport : ea.toNat = Config.ioOut ↔ ea = 65535 := by
    rw [Config.ioOut]
    omega
  simp only [storeCell_out, preIncrement_out, hport]

theorem storeCell_keepsRecord : KeepsRecord s (s.preIncrement.storeCell a v) :=
  ⟨storeCell_faultCause .., storeCell_faultPc .., storeCell_faultInfo .., storeCell_program ..⟩

end

/-! ### The statements -/

/-- Settles O18: CONST is a register write of its immediate. -/
theorem constWritesTheImmediate : Obligations.ConstWritesTheImmediate := by
  intro value rd s
  refine ⟨fun h => encodedAs_const h rd, _, exec_const value rd s, ?_⟩
  rw [← immediateWord_toNat]
  exact setReg_writesResult s rd _

/-- Settles O19: LOAD is a register write of the cell where the address is valid, and a MemoryFault elsewhere. -/
theorem loadCopiesTheCellOrFaults : Obligations.LoadCopiesTheCellOrFaults := by
  intro rs rd offset s hlo hhi
  have hoff := offsetEncodable_iff.mpr ⟨hlo, hhi⟩
  refine ⟨encodedAs_rri .load rfl (fun _ _ _ => rfl) (fun _ => rfl) hoff rs rd, fun hin => ?_, fun hout => ?_⟩
  · exact ⟨_, exec_load_of_valid hoff (addressValid_iff.mpr hin), setReg_writesResult s rd _⟩
  · exact ⟨_, exec_load_of_invalid hoff (addressValid_eq_false_iff.mpr hout), memoryFault_takesFault s _⟩

/-- Settles O20: STORE is the store of one cell where the address is valid, and a MemoryFault elsewhere. -/
theorem storeWritesTheCellAndEmitsOrFaults : Obligations.StoreWritesTheCellAndEmitsOrFaults := by
  intro rs rd offset s hlo hhi
  have hoff := offsetEncodable_iff.mpr ⟨hlo, hhi⟩
  rw [addressOperand_eq]
  refine ⟨encodedAs_rri .store rfl (fun _ _ _ => rfl) (fun _ => rfl) hoff rs rd, rfl, fun hin => ?_, fun hout => ?_⟩
  · refine ⟨_, exec_store_of_valid hoff (addressValid_iff.mpr hin), ?_, storeCell_keepsMemoryBut s _ hin.1, ?_,
      storeCell_keepsRegs s _ _, storeCell_advances s _ _, storeCell_status .., storeCell_keepsRecord s _ _⟩
    · rw [cell_storeCell, if_pos rfl, preIncrement_getReg_toNat]
    · rw [storeCell_out_of_address, preIncrement_getReg_eq_ofNat]
  · exact ⟨_, exec_store_of_invalid hoff (addressValid_eq_false_iff.mpr hout), memoryFault_takesFault s _⟩

end Sys2Proof.Machine
end

section
/-! SUPPORT. JMP, BZ, HALT (44_control_halt.md): the encoding of the format RI with an offset, the decode of a selector
above 8 in it, the step at a PC outside the Program (R113), and the machine that has stopped (R72). -/

namespace Sys2Proof

/-! ### A word assembled from given fields (R56, R64) -/

/-- A word assembled with its must-be-zero fields zero decodes by steps 3 and 4 of R64. -/
theorem decode_assemble {o : Opcode} {r1 r2 r3 : Sel} {imm : Word}
    (hz : unusedZero o.format ⟨byteOfOpcode o, r1, r2, r3, 0, imm⟩ = true) :
    decode (assemble o r1 r2 r3 imm) = buildInstr o ⟨byteOfOpcode o, r1, r2, r3, 0, imm⟩ := by
  simp only [decode, fieldsOf_assemble, opcodeOfByte_byteOfOpcode, hz, if_true]

end Sys2Proof

namespace Sys2Proof.Machine

/-- The assembled word is the one with its number. -/
theorem ofNat_wordNumber (o : Opcode) (r1 r2 r3 : Sel) (imm : Word) :
    BitVec.ofNat 64 (wordNumber (byteOfOpcode o).toNat r1.toNat r2.toNat r3.toNat imm.toNat) =
      assemble o r1 r2 r3 imm := by
  rw [← assemble_toNat, BitVec.ofNat_toNat, BitVec.setWidth_eq]

/-- One register operand and an encodable offset, format RI. -/
theorem encodedAs_ri (mk : Reg → Int → Instr) {o : Opcode} (hfmt : o.format = .ri)
    (he : ∀ ra offset, encode (mk ra offset) = assemble o (selOfReg ra) 0 0 (BitVec.ofInt 32 offset))
    (hb : ∀ f, buildInstr o f = withReg f.r1 fun ra => .instr (mk ra f.imm.toInt))
    {offset : Int} (hoff : offsetEncodable offset = true) (ra : Reg) :
    EncodedAs (mk ra offset) (wordNumber (byteOfOpcode o).toNat ra.num 0 0 (offsetField offset)) := by
  have h := encodedAs_of_assemble (he ra offset) (by rw [hfmt]; rfl)
    (by rw [hb, withReg_selOfReg, toInt_ofInt_of_encodable hoff])
  rwa [selOfReg_toNat, ofInt_toNat_eq_offsetField] at h

/-- BZ's selector is checked at decode (R66). -/
theorem decode_bz_of_large {sel : Sel} (h : 8 < sel.toNat) (offset : Int) :
    decode (BitVec.ofNat 64 (wordNumber 0x0F sel.toNat 0 0 (offsetField offset))) = .invalidRegister sel := by
  have hword := ofNat_wordNumber .bz sel 0 0 (BitVec.ofInt 32 offset)
  rw [ofInt_toNat_eq_offsetField] at hword
  calc decode (BitVec.ofNat 64 (wordNumber 0x0F sel.toNat 0 0 (offsetField offset)))
      = decode (assemble .bz sel 0 0 (BitVec.ofInt 32 offset)) := congrArg decode hword
    _ = buildInstr .bz ⟨byteOfOpcode .bz, sel, 0, 0, 0, BitVec.ofInt 32 offset⟩ := decode_assemble rfl
    _ = .invalidRegister sel := withReg_of_large h _

/-! ### The step at a PC outside the Program (R73, R113, R137) -/

section
variable {s : State}

theorem fetch_eq_none_of_outside (hout : s.program.len ≤ s.pc.toNat) : s.fetch = none :=
  if_neg (Nat.not_lt.mpr hout)

theorem step_of_outside (hs : s.status = .running) (hout : s.program.len ≤ s.pc.toNat) :
    step s = .next s.programBoundsFault := by
  simp only [step, hs, fetch_eq_none_of_outside hout]

/-- Everything a ProgramBoundsFault does (R137, R141). -/
theorem programBoundsFault_takesFault (s : State) :
    TakesFault s s.programBoundsFault .programBoundsFault (BitVec.ofNat 64 s.pc.toNat) := by
  rw [BitVec.ofNat_toNat]
  exact takeFault_takesFault s .programBoundsFault (infoOfPc s.pc)

/-- A transfer to a target outside the Program faults at the next fetch (R113). -/
theorem TransfersTo.next_step_faults {t : State} {target : Nat} (h : TransfersTo s t target)
    (hs : s.status = .running) (hout : s.program.len ≤ t.pc.toNat) :
    ∃ u, step t = .next u ∧ TakesFault t u .programBoundsFault (BitVec.ofNat 64 t.pc.toNat) := by
  obtain ⟨-, -, -, -, hstatus, -, -, -, hprogram⟩ := h
  exact ⟨_, step_of_outside (hstatus.trans hs) (hprogram ▸ hout), programBoundsFault_takesFault t⟩

/-! ### A machine that has stopped (R72, R123) -/

theorem step_ne_next_of_stopped (hs : s.status ≠ .running) (u : State) : step s ≠ .next u :=
  fun h => hs (step_effect h).1

/-- Without `commit` and without a fault request an edge keeps every register of the design (R132). -/
theorem clocked_of_idle {w : Blocks.Wires} (hc : w.commit = false) (hq : w.faultRequest = false)
    (hsc : w.storeCommit = false) : Blocks.clocked s w = s := by
  simp [Blocks.clocked, Blocks.regNext, Blocks.pcNext, Blocks.ioOutValid, hc, hq, hsc]

/-- A clock edge without reset leaves a stopped machine as it is. -/
theorem edge_false_of_stopped (hs : s.status ≠ .running) : Blocks.edge false s = s := by
  have hc : (Blocks.wires false s).commit = false := by simp [Blocks.wires, Blocks.commit, hs]
  have hq : (Blocks.wires false s).faultRequest = false := by simp [Blocks.wires, hs]
  have hsc : (Blocks.wires false s).storeCommit = false := by
    rw [show (Blocks.wires false s).storeCommit =
      (Blocks.isStore (Blocks.wires false s).instr && (Blocks.wires false s).commit) from rfl, hc, Bool.and_false]
  exact clocked_of_idle hc hq hsc

end

/-! ### The targets (R22) -/

theorem branchTarget_toNat_eq (base : Word) (offset : Int) :
    (branchTarget base offset).toNat = (((base.toNat : Int) + offset) % 2 ^ 32).toNat := by
  rw [← branchTarget_toNat, Int.toNat_natCast]

/-- BZ's target counts from i + 1, whose own reduction is absorbed by the target's. -/
theorem branchTarget_preIncrement_pc (s : State) (offset : Int) :
    (branchTarget s.preIncrement.pc offset).toNat = (((s.pc.toNat : Int) + 1 + offset) % 2 ^ 32).toNat := by
  have hpc : s.preIncrement.pc.toNat = (s.pc.toNat + 1) % 2 ^ 32 := preIncrement_advances s
  rw [branchTarget_toNat_eq, hpc, Int.natCast_emod, Nat.cast_add]
  exact congrArg Int.toNat (Int.emod_add_emod _ _ _)

/-- The zero test sees the operand's number. -/
theorem isZeroWord_preIncrement_getReg (s : State) (r : Reg) :
    isZeroWord (s.preIncrement.getReg r) = decide (s.operand r = 0) := by
  rw [isZeroWord, ← preIncrement_getReg_toNat]
  exact decide_eq_decide.mpr BitVec.toNat_eq

/-! ### The meanings -/

section
variable {r : Reg} {offset : Int} {s : State} (hoff : offsetEncodable offset = true)
include hoff

theorem exec_jmp :
    exec (.jmp r offset) s = .next (s.preIncrement.setPc (branchTarget (s.preIncrement.getReg r) offset)) := by
  rw [exec, execJmp, withOffset_of_encodable hoff]

theorem exec_bz_of_zero (hz : s.operand r = 0) :
    exec (.bz r offset) s = .next (s.preIncrement.setPc (branchTarget s.preIncrement.pc offset)) := by
  rw [exec, execBz, withOffset_of_encodable hoff, isZeroWord_preIncrement_getReg, if_pos (decide_eq_true hz)]

theorem exec_bz_of_ne_zero (hz : s.operand r ≠ 0) : exec (.bz r offset) s = .next s.preIncrement := by
  rw [exec, execBz, withOffset_of_encodable hoff, isZeroWord_preIncrement_getReg, if_neg (by simpa using hz)]

/-- Everything JMP does. -/
theorem jmp_effect (r : Reg) (s : State) :
    ∃ t, exec (.jmp r offset) s = .next t ∧ TransfersTo s t (((s.operand r : Int) + offset) % 2 ^ 32).toNat := by
  refine ⟨_, exec_jmp hoff, ?_⟩
  rw [← preIncrement_getReg_toNat, ← branchTarget_toNat_eq]
  exact setPc_transfersTo s _

/-- Everything BZ does: a transfer in either case. -/
theorem bz_effect (r : Reg) (s : State) :
    ∃ t, exec (.bz r offset) s = .next t ∧ TransfersTo s t
      (if s.operand r = 0 then (((s.pc.toNat : Int) + 1 + offset) % 2 ^ 32).toNat else (s.pc.toNat + 1) % 2 ^ 32) := by
  split
  · next hz =>
    refine ⟨_, exec_bz_of_zero hoff hz, ?_⟩
    rw [← branchTarget_preIncrement_pc]
    exact setPc_transfersTo s _
  · next hz => exact ⟨_, exec_bz_of_ne_zero hoff hz, preIncrement_transfersTo s⟩

end

theorem exec_halt (s : State) : exec .halt s = .next s.preIncrement.halt := rfl

theorem encodedAs_halt : EncodedAs .halt (wordNumber 0x10 0 0 0 0) :=
  encodedAs_of_assemble (o := .halt) (r1 := 0) (r2 := 0) (r3 := 0) (imm := 0) rfl rfl rfl

/-- Halting after the pre-increment writes no register (R116). -/
theorem halt_keepsRegs (s : State) : KeepsRegs s s.preIncrement.halt := by
  intro r hpc
  rw [getReg_halt, getReg_preIncrement hpc]

/-! ### The statements -/

/-- Settles O21: JMP is a transfer to its target, and the step after it is the one at that PC. -/
theorem jmpTransfersToBasePlusOffset : Obligations.JmpTransfersToBasePlusOffset := by
  intro rd offset s hlo hhi
  have hoff := offsetEncodable_iff.mpr ⟨hlo, hhi⟩
  obtain ⟨t, hexec, ht⟩ := jmp_effect hoff rd s
  refine ⟨encodedAs_ri .jmp rfl (fun _ _ => rfl) (fun _ => rfl) hoff rd, t, hexec, ht, fun hs hout => ?_⟩
  exact ht.next_step_faults hs (hout.trans_eq ht.1.symm)

/-- Settles O22: BZ is a transfer to one of two targets, by the value of its register. -/
theorem bzTransfersExactlyWhenZero : Obligations.BzTransfersExactlyWhenZero := by
  intro rt offset s hlo hhi
  have hoff := offsetEncodable_iff.mpr ⟨hlo, hhi⟩
  obtain ⟨t, hexec, ht⟩ := bz_effect hoff rt s
  refine ⟨encodedAs_ri .bz rfl (fun _ _ => rfl) (fun _ => rfl) hoff rt, t, hexec, fun hz => ?_, fun hz => ?_,
    ht.next_step_faults, fun sel hsel => decode_bz_of_large hsel offset⟩
  · rwa [if_pos hz] at ht
  · rwa [if_neg hz] at ht

/-- Settles O23: HALT is the pre-increment and the status; what follows is what is true of every stopped machine. -/
theorem haltStopsWithPcAfterIt : Obligations.HaltStopsWithPcAfterIt := by
  intro s
  have hstopped : s.preIncrement.halt.status ≠ .running := nofun
  exact ⟨encodedAs_halt, _, exec_halt s, halt_status _, preIncrement_advances s, halt_keepsRegs s, fun _ => rfl, rfl,
    ⟨rfl, rfl, rfl, rfl⟩, step_ne_next_of_stopped hstopped, edge_false_of_stopped hstopped, rfl⟩

end Sys2Proof.Machine
end

section
/-! SUPPORT. The faults of a step (60_exceptions.md): a decoded instruction always executes to a next state, so a step
is one equation per outcome of fetch and decode, and a step that ends Faulted has taken a fault and done nothing else. -/

namespace Sys2Proof

/-! ### What is decoded has an encoding (R60 to R62) -/

theorem wf_of_buildInstr {o : Opcode} {f : Fields} {i : Instr} (h : buildInstr o f = .instr i) : i.wf = true := by
  cases o with
  | add | sub | and | or | xor | shl | shr | cmp =>
    obtain ⟨ra, -, h⟩ := withReg_eq_instr h
    obtain ⟨rb, -, h⟩ := withReg_eq_instr h
    obtain ⟨rd, -, h⟩ := withReg_eq_instr h
    cases h
    rfl
  | inc | dec =>
    obtain ⟨ra, -, h⟩ := withReg_eq_instr h
    cases h
    rfl
  | const =>
    obtain ⟨rd, -, h⟩ := withReg_eq_instr h
    cases h
    exact valueEncodable_toNat f.imm
  | load | store =>
    obtain ⟨rs, -, h⟩ := withReg_eq_instr h
    obtain ⟨rd, -, h⟩ := withReg_eq_instr h
    cases h
    exact offsetEncodable_toInt f.imm
  | jmp | bz =>
    obtain ⟨r, -, h⟩ := withReg_eq_instr h
    cases h
    exact offsetEncodable_toInt f.imm
  | halt =>
    cases h
    rfl

theorem wf_of_decode {w : IWord} {i : Instr} (h : decode w = .instr i) : i.wf = true := by
  unfold decode at h
  split at h
  · cases h
  · split at h
    · exact wf_of_buildInstr h
    · cases h

end Sys2Proof

namespace Sys2Proof.Machine

/-! ### Executing a well-formed instruction -/

section
variable {i : Instr} {s t : State} {base : Reg} {offset : Int}

theorem offsetEncodable_of_accesses (hwf : i.wf = true) (hi : Accesses i base offset) :
    offsetEncodable offset = true := by
  rcases hi with ⟨rd, rfl⟩ | ⟨rs, rfl⟩ <;> exact hwf

/-- An access outside data memory takes MemoryFault (R140). -/
theorem exec_of_invalid_access (hwf : i.wf = true) (hi : Accesses i base offset)
    (hv : addressValid (s.effAddr base offset) = false) : exec i s = .next (s.memoryFault (s.effAddr base offset)) := by
  have hoff := offsetEncodable_of_accesses hwf hi
  rcases hi with ⟨rd, rfl⟩ | ⟨rs, rfl⟩
  · exact exec_load_of_invalid hoff hv
  · exact exec_store_of_invalid hoff hv

/-- An instruction with an encoding is not refused. -/
theorem exists_exec_next_of_wf (hwf : i.wf = true) (s : State) : ∃ t, exec i s = .next t := by
  cases i with
  | add | sub | and | or | xor | shl | shr | cmp | inc | dec | const | halt => exact ⟨_, rfl⟩
  | load rs rd offset =>
    cases hv : addressValid (s.effAddr rs offset) with
    | true => exact ⟨_, exec_load_of_valid hwf hv⟩
    | false => exact ⟨_, exec_load_of_invalid hwf hv⟩
  | store rs rd offset =>
    cases hv : addressValid (s.effAddr rd offset) with
    | true => exact ⟨_, exec_store_of_valid hwf hv⟩
    | false => exact ⟨_, exec_store_of_invalid hwf hv⟩
  | jmp rd offset => exact (jmp_effect hwf rd s).imp fun _ h => h.1
  | bz rt offset => exact (bz_effect hwf rt s).imp fun _ h => h.1

/-- MemoryFault is the only fault of the execute phase, and an access outside data memory its only reason. -/
theorem ExecEffect.eq_memoryFault (h : ExecEffect i s t) (hs : s.status = .running) (ht : t.status = .faulted) :
    ∃ base offset, Accesses i base offset ∧ addressValid (s.effAddr base offset) = false ∧
      t = s.memoryFault (s.effAddr base offset) := by
  cases h with
  | register rd v => simp [hs] at ht
  | transfer target => simp [hs] at ht
  | store rs rd offset => simp [hs] at ht
  | halt => simp at ht
  | memoryFault base offset hi _ hv => exact ⟨base, offset, hi, hv, rfl⟩

end

/-! ### The step, by what is fetched and how it decodes (R73, R74, R82) -/

section
variable {s : State} {w : IWord} (hs : s.status = .running) (hf : s.fetch = some w)
include hs hf

theorem step_of_invalidOpcode (hd : decode w = .invalidOpcode) : step s = .next (s.invalidOpcodeFault w) := by
  simp only [step, hs, hf, hd]

theorem step_of_invalidRegister {sel : Sel} (hd : decode w = .invalidRegister sel) :
    step s = .next (s.invalidRegisterFault sel) := by
  simp only [step, hs, hf, hd]

theorem step_of_instr {i : Instr} (hd : decode w = .instr i) : step s = exec i s := by
  simp only [step, hs, hf, hd]

end

theorem exists_step_next_of_running {s : State} (hs : s.status = .running) : ∃ t, step s = .next t := by
  rcases step_running hs with ⟨-, -, h⟩ | ⟨w, -, -, h⟩ | ⟨w, sel, -, -, h⟩ | ⟨w, i, -, hd, h⟩
  · exact ⟨_, h⟩
  · exact ⟨_, h⟩
  · exact ⟨_, h⟩
  · rw [h]
    exact exists_exec_next_of_wf (wf_of_decode hd) s

/-- A step that ends Faulted has taken a fault, and that is all it has done (R141). -/
theorem StepEffect.eq_takeFault {s t : State} (h : StepEffect s t) (hs : s.status = .running)
    (ht : t.status = .faulted) : ∃ cause info, cause ≠ .noFault ∧ t = s.takeFault cause info := by
  cases h with
  | bounds => exact ⟨.programBoundsFault, _, nofun, rfl⟩
  | opcode w => exact ⟨.invalidOpcode, _, nofun, rfl⟩
  | selector w sel => exact ⟨.invalidRegister, _, nofun, rfl⟩
  | executes w i t _ _ he =>
    obtain ⟨base, offset, -, -, rfl⟩ := (exec_effect he).eq_memoryFault hs ht
    exact ⟨.memoryFault, _, nofun, rfl⟩

/-- Everything an InvalidRegister does (R139, R141). -/
theorem invalidRegisterFault_takesFault (s : State) (sel : Sel) :
    TakesFault s (s.invalidRegisterFault sel) .invalidRegister (BitVec.ofNat 64 sel.toNat) := by
  rw [BitVec.ofNat_toNat]
  exact takeFault_takesFault s .invalidRegister (infoOfSelector sel)

/-! ### The statements -/

/-- Settles O29: the outcome of fetch and decode, which R64 gives by the row, says which equation of the step applies;
in the execute phase the address of the access decides. -/
theorem firstApplicableFaultIsTaken : Obligations.FirstApplicableFaultIsTaken := by
  intro s hs
  obtain ⟨t, hstep⟩ := exists_step_next_of_running hs
  refine ⟨t, hstep, fun hout => ?_, fun w hf => ⟨fun hno => ?_, fun row hrow hm => ?_⟩⟩
  · cases hstep.symm.trans (step_of_outside hs hout)
    exact programBoundsFault_takesFault s
  · cases hstep.symm.trans (step_of_invalidOpcode hs hf (decode_of_no_row hno))
    exact takeFault_takesFault s .invalidOpcode w
  obtain ⟨hbad, hgood⟩ := (decodeFollowsTheOpcodeTable w).2 row hrow hm
  refine ⟨fun sel hsel => ?_, fun hnone => ?_⟩
  · cases hstep.symm.trans (step_of_invalidRegister hs hf (hbad sel hsel))
    exact invalidRegisterFault_takesFault s sel
  obtain ⟨i, hd, -, -⟩ := hgood hnone
  have hexec : exec i s = .next t := (step_of_instr hs hf hd).symm.trans hstep
  refine ⟨i, hd, fun base offset hi hout => ?_, fun hin ht => ?_⟩
  · cases hexec.symm.trans (exec_of_invalid_access (wf_of_decode hd) hi (addressValid_eq_false_iff.mpr hout))
    exact memoryFault_takesFault s _
  · obtain ⟨base, offset, hi, hv, -⟩ := (exec_effect hexec).eq_memoryFault hs ht
    exact Bool.eq_false_iff.mp hv (addressValid_iff.mpr (hin base offset hi))

/-- Settles O30: such a step is `takeFault`, whatever its cause. -/
theorem faultingStepCommitsNothing : Obligations.FaultingStepCommitsNothing := by
  intro s t hstep ht
  obtain ⟨hs, heffect⟩ := step_effect hstep
  obtain ⟨cause, info, hcause, rfl⟩ := heffect.eq_takeFault hs ht
  exact ⟨hcause, takeFault_takesFault s cause info⟩

end Sys2Proof.Machine
end

section
/-! SUPPORT. The round trip of the binary level (R63, R64) and the serialisation of a word (R42). -/

namespace Sys2Proof

/-! ### Decode and encode are inverse (R56 to R64) -/

/-- A word assembled from registers and an encodable immediate is built back, operand by operand. -/
theorem decode_encode {i : Instr} (hwf : i.wf = true) : decode (encode i) = .instr i := by
  cases i with
  | add | sub | and | or | xor | shl | shr | cmp | inc | dec =>
    rw [encode, decode_assemble rfl]
    simp only [buildInstr, withReg_selOfReg]
  | const value rd =>
    rw [encode, decode_assemble rfl]
    simp only [buildInstr, withReg_selOfReg, toNat_ofNat_of_encodable hwf]
  | load _ _ offset | store _ _ offset | jmp _ offset | bz _ offset =>
    rw [encode, decode_assemble rfl]
    simp only [buildInstr, withReg_selOfReg, toInt_ofInt_of_encodable hwf]
  | halt => rw [encode, decode_assemble rfl, buildInstr]

/-- An instruction is decoded only from a word of some row, where R64 says that its word is the one decoded. -/
theorem encode_of_decode {w : IWord} {i : Instr} (h : decode w = .instr i) : encode i = w := by
  by_cases hno : ∀ row ∈ opcodeTable, row.matchesWord w = false
  · exact nomatch (decode_of_no_row hno).symm.trans h
  · push Not at hno
    obtain ⟨row, hrow, hm⟩ := hno
    obtain ⟨hbad, hgood⟩ := (decodeFollowsTheOpcodeTable w).2 row hrow (Bool.of_not_eq_false hm)
    cases hsel : row.firstBadSelector w with
    | some sel => exact nomatch (hbad sel hsel).symm.trans h
    | none =>
      obtain ⟨j, hj, -, hw⟩ := hgood hsel
      cases hj.symm.trans h
      exact hw

/-- Settles O2: instruction by instruction, by the fields of the assembled word. -/
theorem decodeOfEncodeIsTheInstruction : Obligations.DecodeOfEncodeIsTheInstruction :=
  fun _ hwf => decode_encode hwf

/-- Settles O3: what is decoded is some row's instruction, and has an encoding. -/
theorem encodeOfDecodeIsTheWord : Obligations.EncodeOfDecodeIsTheWord :=
  fun _ _ h => ⟨encode_of_decode h, wf_of_decode h⟩

/-! ### Rows of the opcode table -/

theorem byteOfOpcode_injective : Function.Injective byteOfOpcode := fun o o' h =>
  Option.some.inj (by rw [← opcodeOfByte_byteOfOpcode o, h, opcodeOfByte_byteOfOpcode])

/-- An opcode has one row. -/
theorem row_eq_of_opcode_eq : ∀ row ∈ opcodeTable, ∀ row' ∈ opcodeTable, row.opcode = row'.opcode → row = row' := by
  decide

/-- Settles O5: a matched row is the one of the word's opcode byte. -/
theorem opcodeRowsNeverOverlap : Obligations.OpcodeRowsNeverOverlap := by
  intro w row hrow row' hrow' hm hm'
  have hop := ((matchesWord_iff hrow w).mp hm).1
  have hop' := ((matchesWord_iff hrow' w).mp hm').1
  exact row_eq_of_opcode_eq row hrow row' hrow' (byteOfOpcode_injective (hop.symm.trans hop'))

/-- Settles O1: the decoder run on the twelve words. -/
theorem writtenWordsDecodeAsTheRulesSay : Obligations.WrittenWordsDecodeAsTheRulesSay := by
  unfold Obligations.WrittenWordsDecodeAsTheRulesSay
  decide

/-! ### Bytes, most significant first (R42) -/

theorem bytesOfNat_length (n v : Nat) : (bytesOfNat n v).length = n := by
  induction n with
  | zero => rfl
  | succ n ih => rw [bytesOfNat, List.length_cons, ih]

/-- Reading the bytes of a number appends its last `n` base-256 digits to what was read before. -/
theorem foldl_bytesOfNat (n v acc : Nat) :
    (bytesOfNat n v).foldl (fun acc b => acc * 256 + b.toNat) acc = acc * 256 ^ n + v % 256 ^ n := by
  induction n generalizing acc with
  | zero => simp [bytesOfNat, Nat.mod_one]
  | succ n ih =>
    have hdigit : v % 256 ^ (n + 1) = v % 256 ^ n + 256 ^ n * (v / 256 ^ n % 256) := Nat.mod_mul
    rw [bytesOfNat, List.foldl_cons, ih, BitVec.toNat_ofNat, hdigit]
    ring

theorem natOfBytes_bytesOfIWord (w : IWord) : natOfBytes (bytesOfIWord w) = w.toNat := by
  rw [natOfBytes, bytesOfIWord, foldl_bytesOfNat, Nat.zero_mul, Nat.zero_add, Nat.mod_eq_of_lt]
  exact w.isLt

theorem bytesOfIWord_length (w : IWord) : (bytesOfIWord w).length = 8 :=
  bytesOfNat_length 8 w.toNat

/-- The first byte is bits 63 to 56. -/
theorem bytesOfIWord_first (w : IWord) : (bytesOfIWord w)[0]? = some (w.extractLsb' 56 8) := by
  rw [bytesOfIWord, bytesOfNat, List.getElem?_cons_zero]
  refine congrArg some (BitVec.eq_of_toNat_eq ?_)
  rw [BitVec.extractLsb'_toNat, BitVec.toNat_ofNat, Nat.shiftRight_eq_div_pow]
  rfl

/-- Settles O6: the eight bytes are a word's base-256 digits, which reading puts together again. -/
theorem serialisedWordsDecodeAsThemselves : Obligations.SerialisedWordsDecodeAsThemselves := by
  intro w rest
  have hlen := bytesOfIWord_length w
  refine ⟨hlen, bytesOfIWord_first w, ?_⟩
  rw [decodeBytes, if_pos (by rw [List.length_append]; omega), List.take_left' hlen, List.drop_left' hlen,
    natOfBytes_bytesOfIWord, BitVec.ofNat_toNat, BitVec.setWidth_eq]

end Sys2Proof
end

section
/-! SUPPORT. An instruction whose destination is PC is a transfer (R117): the operand forms with PC as destination, the
instructions that write no PC (R22), and the transfers back to the instruction itself. With them the laws across two
instructions: a load after a store (R49), and an operation undone by its inverse (R98). -/

namespace Sys2Proof.Machine

/-! ### The operand forms with destination PC -/

/-- A result written to PC is a transfer to it. -/
theorem WritesResult.transfersTo {s t : State} {v : Nat} (h : WritesResult s t .pc v) : TransfersTo s t v := by
  obtain ⟨hpc, -, hregs, hmem, hout, hstatus, hrecord⟩ := h
  exact ⟨hpc, fun r hr => hregs r hr hr, hmem, hout, hstatus, hrecord⟩

theorem exists_transfersTo {o : StepOutcome} {s : State} {v : Nat} (h : ∃ t, o = .next t ∧ WritesResult s t .pc v) :
    ∃ t, o = .next t ∧ TransfersTo s t v :=
  h.imp fun _ ⟨hnext, hwrites⟩ => ⟨hnext, hwrites.transfersTo⟩

/-- A two-operand function that is `g` on numbers transfers to `g` of the operands. -/
theorem binaryOp_pc_transfers {f : Word → Word → Word} {g : Nat → Nat → Nat}
    (hf : ∀ a b, (f a b).toNat = g a.toNat b.toNat) (ra rb : Reg) (s : State) :
    ∃ t, binaryOp f ra rb .pc s = .next t ∧ TransfersTo s t (g (s.operand ra) (s.operand rb)) := by
  have h := binaryOp_effect f ra rb .pc s
  rw [hf, preIncrement_getReg_toNat, preIncrement_getReg_toNat] at h
  exact exists_transfersTo h

/-- The difference of R95 without its two cases. -/
theorem subWord_toNat_mod (a b : Word) : (subWord a b).toNat = (a.toNat + 2 ^ 32 - b.toNat) % 2 ^ 32 := by
  have hb := b.isLt
  rw [subWord, BitVec.toNat_sub]
  congr 1
  omega

theorem inc_pc_transfers (s : State) :
    ∃ t, exec (.inc .pc) s = .next t ∧ TransfersTo s t ((s.pc.toNat + 2) % 2 ^ 32) := by
  have h := (incWritesTheSuccessorModulo .pc s).2
  rw [State.operand, Nat.mod_add_mod] at h
  exact exists_transfersTo h

/-- One step on and one back. -/
theorem decWord_preIncrement_pc (s : State) : decWord s.preIncrement.pc = s.pc := by
  rw [decWord, preIncrement_pc, BitVec.add_sub_cancel]

theorem dec_pc_transfers (s : State) : ∃ t, exec (.dec .pc) s = .next t ∧ TransfersTo s t s.pc.toNat := by
  have h := unaryOp_effect decWord .pc s
  rw [getReg_pc, decWord_preIncrement_pc] at h
  exact exists_transfersTo h

/-! ### The instructions that write no PC -/

/-- Without a fault, PC advances unless the instruction writes it. -/
theorem ExecEffect.pcAdvances {i : Instr} {s t : State} (h : ExecEffect i s t) (ht : t.status ≠ .faulted)
    (hd : destination i ≠ some .pc) (hi : isTransfer i = false) : PcAdvances s t := by
  cases h with
  | register rd v hrd =>
    rw [PcAdvances, setReg_keeps_pc (by rintro rfl; exact hd hrd)]
    exact preIncrement_advances s
  | transfer target htransfer => exact nomatch hi.symm.trans htransfer
  | store rs rd offset => exact storeCell_advances s _ _
  | halt => exact preIncrement_advances s
  | memoryFault => exact absurd rfl ht

/-- Settles O24: what each instruction writes to its destination is known, and STORE has no destination. -/
theorem destinationPcIsATransfer : Obligations.DestinationPcIsATransfer := by
  intro ra rb s
  refine ⟨exists_transfersTo (addWritesTheSumModulo ra rb .pc s).2,
    binaryOp_pc_transfers (g := fun a b => (a + 2 ^ 32 - b) % 2 ^ 32) subWord_toNat_mod ra rb s,
    inc_pc_transfers s, dec_pc_transfers s, binaryOp_pc_transfers BitVec.toNat_and ra rb s,
    binaryOp_pc_transfers BitVec.toNat_or ra rb s, binaryOp_pc_transfers BitVec.toNat_xor ra rb s,
    exists_transfersTo (shlMultipliesByThePowerModulo ra rb .pc s).2,
    exists_transfersTo (shrDividesByThePower ra rb .pc s).2,
    exists_transfersTo (cmpWritesExactlyZeroOrOne ra rb .pc s).2,
    fun value hvalue => ?const, fun offset hlo hhi => ?load, fun offset t hexec hs ht => ?store⟩
  case const =>
    have h := (constWritesTheImmediate value .pc s).2
    rw [Nat.mod_eq_of_lt hvalue] at h
    exact exists_transfersTo h
  case load =>
    obtain ⟨-, hin, hout⟩ := loadCopiesTheCellOrFaults ra .pc offset s hlo hhi
    refine ⟨fun h => exists_transfersTo (hin h), fun h => ?_⟩
    obtain ⟨t, hexec, -, -, -, -, hregs, -⟩ := hout h
    exact ⟨t, hexec, hregs .pc⟩
  case store => exact (exec_effect hexec).pcAdvances (by simp [ht]) nofun rfl

/-! ### Self-loops (R84, R114) -/

/-- Writing back the PC before the step undoes the pre-increment. -/
theorem preIncrement_setPc_pc (s : State) : s.preIncrement.setPc s.pc = s := rfl

theorem branchTarget_preIncrement_pc_neg_one (s : State) : branchTarget s.preIncrement.pc (-1) = s.pc := by
  have hpc := s.pc.isLt
  refine BitVec.eq_of_toNat_eq ?_
  rw [branchTarget_preIncrement_pc]
  omega

/-- Settles O43: each of the three writes PC, to the index it was fetched from. -/
theorem selfLoopsChangeNothing : Obligations.SelfLoopsChangeNothing := by
  intro s
  have hoff : offsetEncodable (-1) = true := by decide
  refine ⟨?_, ?_, ?_⟩
  · rw [exec_dec, unaryOp, setReg_pc, getReg_pc, decWord_preIncrement_pc, preIncrement_setPc_pc]
  · rw [exec_jmp hoff, getReg_pc, branchTarget_preIncrement_pc_neg_one, preIncrement_setPc_pc]
  · rw [exec_bz_of_zero hoff rfl, branchTarget_preIncrement_pc_neg_one, preIncrement_setPc_pc]

/-! ### Laws across two instructions -/

/-- Settles O40: the store leaves its value in the cell that the load's address names. -/
theorem storeThenLoadReadsTheValue : Obligations.StoreThenLoadReadsTheValue := by
  intro rs rd base dest offset offset' s t hstore hlo hhi hlo' hhi' hsame
  have hoff : offsetEncodable offset = true := (withOffset_eq_next.mp hstore).1
  have hv := addressValid_iff.mpr ⟨hlo, hhi⟩
  cases (exec_store_of_valid hoff hv).symm.trans hstore
  refine ⟨_, exec_load_of_valid (offsetEncodable_iff.mpr ⟨hlo', hhi'⟩) (by rwa [hsame]), ?_⟩
  rw [hsame, cell_storeCell, if_pos rfl, ← preIncrement_getReg_toNat]
  exact setReg_writesResult _ dest _

/-- Settles O41: the port cell of the invariant is the last output. -/
theorem portLoadReadsTheLastOutput : Obligations.PortLoadReadsTheLastOutput := by
  intro rs rd offset s hinv hlo hhi hport
  obtain ⟨-, -, -, hcell⟩ := hinv
  have hcell : s.cell 65535 = s.out.getLastD 0 := beq_iff_eq.mp hcell
  have hv : addressValid (s.effAddr rs offset) = true := by rw [hport]; rfl
  refine ⟨_, exec_load_of_valid (offsetEncodable_iff.mpr ⟨hlo, hhi⟩) hv, ?_⟩
  rw [hport, show (65535 : Int).toNat = 65535 from rfl, hcell]
  exact setReg_writesResult s rd _

/-- A general register's write is read in the execute phase of the next step. -/
theorem preIncrement_setReg_getReg_same {r : Reg} (h0 : r ≠ .r0) (hpc : r ≠ .pc) (s : State) (v : Word) :
    (s.setReg r v).preIncrement.getReg r = v := by
  rw [getReg_preIncrement hpc, getReg_setReg_same h0]

/-- Settles O42: the register that was not written is read alike by both instructions, and the sum or successor is
what the second one reads. -/
theorem subUndoesAddAndDecUndoesInc : Obligations.SubUndoesAddAndDecUndoesInc := by
  refine ⟨fun ra rb rd s t u h0 hpc hbpc hbd hadd hsub => ?_, fun r s t u hpc hinc hdec => ?_⟩
  · cases hadd
    cases hsub
    have hb : ∀ v, (s.preIncrement.setReg rd v).preIncrement.getReg rb = s.preIncrement.getReg rb := fun v => by
      rw [getReg_preIncrement hbpc, getReg_setReg_ne hbd]
    rw [getReg_setReg_same h0, preIncrement_setReg_getReg_same h0 hpc, hb, subWord, addWord, BitVec.add_sub_cancel,
      preIncrement_getReg_toNat]
  · cases hinc
    cases hdec
    by_cases h0 : r = .r0
    · rw [h0, getReg_r0, getReg_r0]
    · rw [getReg_setReg_same h0, preIncrement_setReg_getReg_same h0 hpc, decWord, incWord, BitVec.add_sub_cancel,
        getReg_preIncrement hpc]

/-- Settles O48. -/
theorem r0ReadsZeroAndDropsWrites : Obligations.R0ReadsZeroAndDropsWrites :=
  fun s v => ⟨getReg_r0 s, setReg_r0 s v, rfl⟩

end Sys2Proof.Machine
end

section
/-! SUPPORT. The step and what it executes: a step takes a fault or commits the executed instruction, and what each of
the two leaves alone gives the whole-machine frames (10_state.md) and, over a run, its end and its Program. -/

namespace Sys2Proof.Machine

/-! ### The executed instruction (R72 to R74, R82) -/

theorem Executes.step_eq {s : State} {i : Instr} (h : Executes s i) : step s = exec i s := by
  obtain ⟨hs, hfd⟩ := h
  obtain ⟨w, hf, hd⟩ := Option.map_eq_some_iff.mp hfd
  exact step_of_instr hs hf hd

theorem Executes.wf {s : State} {i : Instr} (h : Executes s i) : i.wf = true := by
  obtain ⟨w, -, hd⟩ := Option.map_eq_some_iff.mp h.2
  exact wf_of_decode hd

theorem Executes.unique {s : State} {i j : Instr} (hi : Executes s i) (hj : Executes s j) : i = j := by
  cases hi.2.symm.trans hj.2
  rfl

theorem executes_of_fetch {s : State} {w : IWord} {i : Instr} (hs : s.status = .running) (hf : s.fetch = some w)
    (hd : decode w = .instr i) : Executes s i :=
  ⟨hs, by rw [fetchDecode_of_fetch hf, hd]⟩

/-- A step takes one of the four faults, or commits the instruction it executes (R132). -/
theorem step_faults_or_commits {s t : State} (h : step s = .next t) :
    (∃ cause info, t = s.takeFault cause info) ∨
    (t.status ≠ .faulted ∧ ∃ i, Executes s i ∧ ExecEffect i s t) := by
  obtain ⟨hs, heffect⟩ := step_effect h
  by_cases ht : t.status = .faulted
  · obtain ⟨cause, info, -, rfl⟩ := heffect.eq_takeFault hs ht
    exact .inl ⟨cause, info, rfl⟩
  · cases heffect with
    | bounds => exact absurd rfl ht
    | opcode => exact absurd rfl ht
    | selector => exact absurd rfl ht
    | executes w i t hf hd he => exact .inr ⟨ht, i, executes_of_fetch hs hf hd, exec_effect he⟩

/-! ### What a committed instruction leaves alone -/

section
variable {i : Instr} {s t : State}

/-- The record and the Program. -/
theorem ExecEffect.keepsRecord (h : ExecEffect i s t) (ht : t.status ≠ .faulted) : KeepsRecord s t := by
  cases h with
  | register rd v => simp [KeepsRecord]
  | transfer target => exact ⟨rfl, rfl, rfl, rfl⟩
  | store rs rd offset => exact storeCell_keepsRecord s _ _
  | halt => exact ⟨rfl, rfl, rfl, rfl⟩
  | memoryFault => exact absurd rfl ht

/-- Every general register that is not the destination. -/
theorem ExecEffect.getReg_eq (h : ExecEffect i s t) {r : Reg} (hpc : r ≠ .pc) (hr : destination i ≠ some r) :
    t.getReg r = s.getReg r := by
  cases h with
  | register rd v hd => rw [getReg_setReg_ne (by rintro rfl; exact hr hd), getReg_preIncrement hpc]
  | transfer target => rw [getReg_setPc hpc, getReg_preIncrement hpc]
  | store rs rd offset => exact storeCell_keepsRegs s _ _ r hpc
  | halt => exact halt_keepsRegs s r hpc
  | memoryFault => exact getReg_takeFault s _ _ r

/-- The status, unless the instruction is HALT or has taken a fault. -/
theorem ExecEffect.eq_halt (h : ExecEffect i s t) (hs : s.status = .running) (ht : t.status = .halted) :
    i = .halt := by
  cases h with
  | register rd v => simp [hs] at ht
  | transfer target => simp [hs] at ht
  | store rs rd offset => simp [hs] at ht
  | halt hi => exact hi
  | memoryFault => exact nomatch ht

end

/-! ### The statements about one step -/

/-- Settles O25. -/
theorem stepIsExecOfTheDecodedInstruction : Obligations.StepIsExecOfTheDecodedInstruction :=
  fun _ _ _ hs hf hd => step_of_instr hs hf hd

/-- The decoder reads an encoded instruction from its table word. -/
theorem decodeTableWord_encode {i : Instr} (hwf : i.wf = true) : decodeTableWord 64 (encode i).toNat = some i := by
  have hlt := (encode i).isLt
  rw [decodeTableWord, Nat.mod_eq_of_lt hlt, if_pos hlt, BitVec.ofNat_toNat, BitVec.setWidth_eq, decode_encode hwf]

/-- A whole word placed for the next fetch is what it fetches. -/
theorem fetch_withFetchWord (s : State) (w : IWord) : (s.withFetchWord 64 w.toNat).fetch = some w := by
  rw [State.withFetchWord, Nat.mod_eq_of_lt w.isLt, fetch_placeAtPc, BitVec.ofNat_toNat, BitVec.setWidth_eq]

/-- Settles O26: the placed word is fetched, and decodes as the instruction it encodes. -/
theorem placedInstructionIsTheOneStepRuns : Obligations.PlacedInstructionIsTheOneStepRuns := by
  intro s i hs hwf
  have hs' : (s.withFetchWord 64 (encode i).toNat).status = .running := hs
  exact ⟨step_of_instr hs' (fetch_withFetchWord s _) (decode_encode hwf), decodeTableWord_encode hwf⟩

/-- Settles O27: no decoded instruction is refused. -/
theorem runningMachineAlwaysSteps : Obligations.RunningMachineAlwaysSteps :=
  fun _ hs => exists_step_next_of_running hs

/-- Settles O28. -/
theorem stoppedMachineStaysAsItIs : Obligations.StoppedMachineStaysAsItIs :=
  fun _ hs => ⟨step_ne_next_of_stopped hs, edge_false_of_stopped hs⟩

/-- Settles O31: a fault ends Faulted, and of what commits only HALT changes the status. -/
theorem onlyHaltHaltsAndOnlyFaultsRecord : Obligations.OnlyHaltHaltsAndOnlyFaultsRecord := by
  intro s t hstep
  refine ⟨⟨fun ht => ?_, fun hhalt => ?_⟩, fun ht => ?_⟩
  · rcases step_faults_or_commits hstep with ⟨cause, info, rfl⟩ | ⟨-, i, hi, heffect⟩
    · exact nomatch ht
    · exact heffect.eq_halt hi.1 ht ▸ hi
  · cases (hhalt.step_eq.trans (exec_halt s)).symm.trans hstep
    rfl
  · rcases step_faults_or_commits hstep with ⟨cause, info, rfl⟩ | ⟨-, i, -, heffect⟩
    · exact absurd rfl ht
    · obtain ⟨hcause, hpc, hinfo, -⟩ := heffect.keepsRecord ht
      exact ⟨hcause, hpc, hinfo⟩

/-- Settles O33: a fault changes no register, and a committed instruction only its destination. -/
theorem onlyTheDestinationRegisterChanges : Obligations.OnlyTheDestinationRegisterChanges := by
  intro s t r hstep hpc hchanged
  rcases step_faults_or_commits hstep with ⟨cause, info, rfl⟩ | ⟨-, i, hi, heffect⟩
  · exact absurd (getReg_takeFault s cause info r) hchanged
  · exact ⟨i, hi, by_contra fun hr => hchanged (heffect.getReg_eq hpc hr)⟩

/-- Settles O34: a fault leaves PC, and a committed instruction that does not write it advances it. -/
theorem pcAdvancesUnlessWrittenOrFaulted : Obligations.PcAdvancesUnlessWrittenOrFaulted := by
  intro s t hstep
  rcases step_faults_or_commits hstep with ⟨cause, info, rfl⟩ | ⟨ht, i, hi, heffect⟩
  · exact ⟨fun _ => rfl, fun _ _ hne => absurd rfl hne⟩
  · refine ⟨fun h => absurd h ht, fun j hj _ hd htransfer => ?_⟩
    cases hi.unique hj
    exact heffect.pcAdvances ht hd htransfer

/-! ### Runs (R72, R83, R142) -/

open Host.Core (run)

theorem run_succ_of_step {s u : State} (h : step s = .next u) (n : Nat) : run core (n + 1) s = run core n u := by
  simp only [run, core, h]

theorem run_succ_of_halted {s : State} (hs : s.status = .halted) (n : Nat) :
    run core (n + 1) s = .fault .halted := by
  simp only [run, core, step, hs]

theorem run_succ_of_faulted {s : State} (hs : s.status = .faulted) (n : Nat) :
    run core (n + 1) s = .fault (.faulted s.faultCause) := by
  simp only [run, core, step, hs]

/-- A run that reaches a state has made its first step. -/
theorem run_succ_eq_next {n : Nat} {s t : State} (h : run core (n + 1) s = .next t) :
    ∃ u, step s = .next u ∧ run core n u = .next t := by
  cases hs : s.status with
  | halted => exact nomatch (run_succ_of_halted hs n).symm.trans h
  | faulted => exact nomatch (run_succ_of_faulted hs n).symm.trans h
  | running =>
    obtain ⟨u, hu⟩ := exists_step_next_of_running hs
    exact ⟨u, hu, (run_succ_of_step hu n).symm.trans h⟩

/-- Settles O32: a Running state steps on, and a stopped one is where the run ends. -/
theorem runsEndOnlyHaltedOrFaulted : Obligations.RunsEndOnlyHaltedOrFaulted := by
  intro n
  induction n with
  | zero => exact fun s => .inl ⟨s, rfl⟩
  | succ n ih =>
    intro s
    cases hs : s.status with
    | halted => exact .inr ⟨0, s, n.succ_pos, rfl, .inl ⟨hs, run_succ_of_halted hs n⟩⟩
    | faulted => exact .inr ⟨0, s, n.succ_pos, rfl, .inr ⟨hs, run_succ_of_faulted hs n⟩⟩
    | running =>
      obtain ⟨u, hu⟩ := exists_step_next_of_running hs
      rw [run_succ_of_step hu]
      rcases ih u with hnext | ⟨m, t, hm, hrun, hstop⟩
      · exact .inl hnext
      · exact .inr ⟨m + 1, t, Nat.succ_lt_succ hm, (run_succ_of_step hu m).trans hrun, hstop⟩

theorem step_keeps_program {s t : State} (h : step s = .next t) : t.program = s.program := by
  rcases step_faults_or_commits h with ⟨cause, info, rfl⟩ | ⟨ht, i, -, heffect⟩
  · rfl
  · obtain ⟨-, -, -, hprogram⟩ := heffect.keepsRecord ht
    exact hprogram

/-- Settles O37: every step of the run keeps the Program. -/
theorem programIsImmutable : Obligations.ProgramIsImmutable := by
  intro n
  induction n with
  | zero =>
    intro s t h
    cases h
    rfl
  | succ n ih =>
    intro s t h
    obtain ⟨u, hstep, hrun⟩ := run_succ_eq_next h
    exact (ih u t hrun).trans (step_keeps_program hstep)

/-! ### Reset (R154, R158, R164) -/

theorem launch_inv {p : Program} (h : p.wf = true) : (State.launch p).Inv :=
  ⟨Memory.reset_wf, h, rfl, rfl⟩

/-- Settles O46: the reset state is the launch state with the empty Program. -/
theorem launchStatesMeetTheInvariant : Obligations.LaunchStatesMeetTheInvariant :=
  ⟨launch_inv (p := { len := 0, words := [] }) rfl, fun _ h => launch_inv h⟩

/-- Settles O52. -/
theorem resetEdgeLaunchesTheSameProgram : Obligations.ResetEdgeLaunchesTheSameProgram :=
  fun s => ⟨edge_true s, rfl⟩

end Sys2Proof.Machine
end

section
/-! SUPPORT. The history of stores (R38, R49): the step performs the store of `storeEvent` where there is one, and
otherwise leaves memory and output alone; over a run the two add up. -/

namespace Sys2Proof.Machine

/-! ### The store of a step -/

/-- A step performs a store exactly when it executes a STORE whose address exists (R110). -/
theorem storeEvent_eq_some_iff {s : State} {e : Nat × Word} :
    storeEvent s = some e ↔ ∃ rs rd offset, Executes s (.store rs rd offset) ∧
      addressValid (s.effAddr rd offset) = true ∧
      e = ((s.effAddr rd offset).toNat, BitVec.ofNat 32 (s.operand rs)) := by
  constructor
  · intro h
    unfold storeEvent at h
    split at h
    · next rs rd offset hs hfd =>
      split at h
      · next hv =>
        cases h
        exact ⟨rs, rd, offset, ⟨hs, hfd⟩, hv, rfl⟩
      · cases h
    · cases h
  · rintro ⟨rs, rd, offset, ⟨hs, hfd⟩, hv, rfl⟩
    simp only [storeEvent, hs, hfd, hv, if_true]

/-- The step that performs a store is that store. -/
theorem step_of_storeEvent_some {s : State} {a : Nat} {v : Word} (h : storeEvent s = some (a, v)) :
    step s = .next (s.preIncrement.storeCell a v) := by
  obtain ⟨rs, rd, offset, hexec, hv, he⟩ := storeEvent_eq_some_iff.mp h
  cases he
  rw [hexec.step_eq, exec_store_of_valid hexec.wf hv, preIncrement_getReg_eq_ofNat]

/-- A step that performs no store leaves memory and output alone. -/
theorem step_of_storeEvent_none {s t : State} (h : storeEvent s = none) (hstep : step s = .next t) :
    t.mem = s.mem ∧ t.out = s.out := by
  rcases step_faults_or_commits hstep with ⟨cause, info, rfl⟩ | ⟨-, i, hi, heffect⟩
  · exact ⟨rfl, rfl⟩
  · cases heffect with
    | register rd v => exact ⟨setReg_mem .., setReg_out ..⟩
    | transfer => exact ⟨rfl, rfl⟩
    | store rs rd offset hstore hv =>
      subst hstore
      exact nomatch h.symm.trans (storeEvent_eq_some_iff.mpr ⟨rs, rd, offset, hi, hv, rfl⟩)
    | halt => exact ⟨rfl, rfl⟩
    | memoryFault => exact ⟨rfl, rfl⟩

/-- Settles O35: the changed cell is the one of the step's store. -/
theorem cellsChangeOnlyByStores : Obligations.CellsChangeOnlyByStores := by
  intro s t a hstep hchanged
  cases hevent : storeEvent s with
  | none => exact absurd (congrArg (cellsRead · a) (step_of_storeEvent_none hevent hstep).1) hchanged
  | some e =>
    obtain ⟨rs, rd, offset, hexec, hv, rfl⟩ := storeEvent_eq_some_iff.mp hevent
    cases (step_of_storeEvent_some hevent).symm.trans hstep
    obtain ⟨hlo, hhi⟩ := addressValid_iff.mp hv
    rw [cell_storeCell] at hchanged ⊢
    split at hchanged
    · next ha =>
      refine ⟨rs, rd, offset, hexec, by omega, by omega, ?_⟩
      rw [if_pos ha, ← preIncrement_getReg_eq_ofNat, preIncrement_getReg_toNat]
    · exact absurd (cell_preIncrement s a) hchanged

/-- Settles O36: the step's store, if it has one, is to the port or it emits nothing. -/
theorem outputGrowsOnlyByPortStores : Obligations.OutputGrowsOnlyByPortStores := by
  intro s t hstep
  have hport : ∀ rs rd offset, Executes s (.store rs rd offset) → s.effAddr rd offset = 65535 →
      storeEvent s = some (65535, BitVec.ofNat 32 (s.operand rs)) := by
    intro rs rd offset hexec hea
    exact storeEvent_eq_some_iff.mpr ⟨rs, rd, offset, hexec, by rw [hea]; rfl, by rw [hea]; rfl⟩
  cases hevent : storeEvent s with
  | none =>
    exact .inl ⟨(step_of_storeEvent_none hevent hstep).2, fun rs rd offset hexec hea =>
      nomatch hevent.symm.trans (hport rs rd offset hexec hea)⟩
  | some e =>
    obtain ⟨rs, rd, offset, hexec, hv, rfl⟩ := storeEvent_eq_some_iff.mp hevent
    cases (step_of_storeEvent_some hevent).symm.trans hstep
    rw [storeCell_out_of_address]
    by_cases hea : s.effAddr rd offset = 65535
    · exact .inr ⟨rs, rd, offset, hexec, hea, if_pos hea⟩
    · refine .inl ⟨if_neg hea, fun rs' rd' offset' hexec' => ?_⟩
      cases hexec.unique hexec'
      exact hea

/-! ### The stores of a run -/

theorem storeEvents_succ_of_step {s u : State} (h : step s = .next u) (n : Nat) :
    storeEvents (n + 1) s = (storeEvent s).toList ++ storeEvents n u := by
  simp only [storeEvents, h]

/-- The latest store of two parts is the second part's, where it has one. -/
theorem latestStore_append (a : Nat) (es es' : List (Nat × Word)) :
    latestStore a (es ++ es') = (latestStore a es').or (latestStore a es) := by
  rw [latestStore, List.filter_append, List.map_append, List.getLast?_append]
  rfl

theorem portValues_append (es es' : List (Nat × Word)) : portValues (es ++ es') = portValues es ++ portValues es' := by
  rw [portValues, List.filter_append, List.map_append]
  rfl

/-- A step, like a run, changes memory by its store only. -/
theorem step_cell {s t : State} (h : step s = .next t) (a : Nat) :
    t.cell a = (latestStore a (storeEvent s).toList).getD (s.cell a) := by
  cases hevent : storeEvent s with
  | none => exact congrArg (cellsRead · a) (step_of_storeEvent_none hevent h).1
  | some e =>
    cases (step_of_storeEvent_some hevent).symm.trans h
    rw [cell_storeCell]
    by_cases ha : a = e.1
    · simp [latestStore, ha]
    · simp [latestStore, ha, Ne.symm ha]

/-- A step, like a run, emits the values it stores to the port. -/
theorem step_out {s t : State} (h : step s = .next t) : t.out = s.out ++ portValues (storeEvent s).toList := by
  cases hevent : storeEvent s with
  | none => simpa [portValues] using (step_of_storeEvent_none hevent h).2
  | some e =>
    cases (step_of_storeEvent_some hevent).symm.trans h
    rw [storeCell_out]
    by_cases ha : e.1 = Config.ioOut
    · simp [portValues, ha]
    · simp [portValues, ha]

/-- Settles O44: by induction on the number of steps, the store of the first step coming before those of the rest. -/
theorem memoryAndOutputFollowTheStores : Obligations.MemoryAndOutputFollowTheStores := by
  intro n
  induction n with
  | zero =>
    intro s t h
    cases h
    exact ⟨fun _ => rfl, (List.append_nil _).symm⟩
  | succ n ih =>
    intro s t h
    obtain ⟨u, hstep, hrun⟩ := run_succ_eq_next h
    obtain ⟨hcell, hout⟩ := ih u t hrun
    rw [storeEvents_succ_of_step hstep]
    refine ⟨fun a => ?_, ?_⟩
    · rw [hcell, step_cell hstep, latestStore_append, Option.getD_or]
    · rw [hout, step_out hstep, portValues_append, List.append_assoc]

end Sys2Proof.Machine
end

section
/-! SUPPORT. What no instruction reads (R24, R28): with another output sequence and another fault record in their place
the machine steps alike, appends the same values, and records the same fault if it takes one. -/

namespace Sys2Proof.Machine

/-- The state with another output sequence and fault record in their place. -/
def State.withHistory (s : State) (o : List Word) (c : FaultCause) (p : Word) (x : BitVec 64) : State :=
  { s with out := o, faultCause := c, faultPc := p, faultInfo := x }

/-- `t'` is the next state `t` of `s`, with its outputs appended to `o`, and with the fault taken, or else the record
`c`, `p`, `x`. -/
def SameButHistory (o : List Word) (c : FaultCause) (p : Word) (x : BitVec 64) (s t t' : State) : Prop :=
  ∃ e, t.out = s.out ++ e ∧
    ((t.status = .faulted ∧ t' = t.withHistory (o ++ e) t.faultCause t.faultPc t.faultInfo) ∨
     (t.status ≠ .faulted ∧ t' = t.withHistory (o ++ e) c p x))

section
variable (s : State) (o : List Word) (c : FaultCause) (p : Word) (x : BitVec 64)

/-! ### The state's operations -/

@[simp] theorem withHistory_getReg (r : Reg) :
    (s.withHistory o c p x).preIncrement.getReg r = s.preIncrement.getReg r := by
  cases r <;> rfl

@[simp] theorem withHistory_effAddr (base : Reg) (offset : Int) :
    (s.withHistory o c p x).effAddr base offset = s.effAddr base offset := by
  cases base <;> rfl

@[simp] theorem withHistory_operand (r : Reg) : (s.withHistory o c p x).operand r = s.operand r := by
  cases r <;> rfl

theorem withHistory_setReg (r : Reg) (v : Word) :
    (s.withHistory o c p x).preIncrement.setReg r v = (s.preIncrement.setReg r v).withHistory o c p x := by
  cases r <;> rfl

theorem withHistory_storeCell (a : Nat) (v : Word) :
    (s.withHistory o c p x).preIncrement.storeCell a v =
      (s.preIncrement.storeCell a v).withHistory (if a = Config.ioOut then o ++ [v] else o) c p x := by
  unfold State.storeCell
  split <;> rfl

theorem sameButHistory_takeFault (cause : FaultCause) (info : BitVec 64) :
    SameButHistory o c p x s (s.takeFault cause info) ((s.withHistory o c p x).takeFault cause info) :=
  ⟨[], (List.append_nil _).symm, .inl ⟨rfl, by rw [List.append_nil]; rfl⟩⟩

section
variable {s o c p x}

/-- What emits nothing and takes no fault leaves the history in place. -/
theorem sameButHistory_of_silent {t : State} (hout : t.out = s.out) (ht : t.status ≠ .faulted) :
    SameButHistory o c p x s t (t.withHistory o c p x) :=
  ⟨[], by rw [hout, List.append_nil], .inr ⟨ht, by rw [List.append_nil]⟩⟩

section
variable (hs : s.status = .running)
include hs

theorem sameButHistory_setReg (r : Reg) (v : Word) :
    SameButHistory o c p x s (s.preIncrement.setReg r v) ((s.withHistory o c p x).preIncrement.setReg r v) := by
  rw [withHistory_setReg]
  exact sameButHistory_of_silent (setReg_out ..) (by simp [hs])

theorem sameButHistory_setPc (target : Word) :
    SameButHistory o c p x s (s.preIncrement.setPc target) ((s.withHistory o c p x).preIncrement.setPc target) :=
  sameButHistory_setReg hs .pc target

theorem sameButHistory_storeCell (a : Nat) (v : Word) :
    SameButHistory o c p x s (s.preIncrement.storeCell a v) ((s.withHistory o c p x).preIncrement.storeCell a v) := by
  refine ⟨if a = Config.ioOut then [v] else [], ?_, .inr ⟨by simp [hs], ?_⟩⟩
  · rw [storeCell_out]
    split <;> simp
  · rw [withHistory_storeCell]
    split <;> simp

/-! ### The instructions -/

theorem binaryOp_sameButHistory (f : Word → Word → Word) (ra rb rd : Reg) {t : State}
    (h : binaryOp f ra rb rd s = .next t) :
    ∃ t', binaryOp f ra rb rd (s.withHistory o c p x) = .next t' ∧ SameButHistory o c p x s t t' := by
  cases h
  refine ⟨_, rfl, ?_⟩
  rw [withHistory_getReg, withHistory_getReg]
  exact sameButHistory_setReg hs rd _

theorem unaryOp_sameButHistory (f : Word → Word) (ra : Reg) {t : State} (h : unaryOp f ra s = .next t) :
    ∃ t', unaryOp f ra (s.withHistory o c p x) = .next t' ∧ SameButHistory o c p x s t t' := by
  cases h
  refine ⟨_, rfl, ?_⟩
  rw [withHistory_getReg]
  exact sameButHistory_setReg hs ra _

/-- An instruction reads registers, PC and memory, and so executes alike. -/
theorem exec_sameButHistory {i : Instr} {t : State} (hwf : i.wf = true) (h : exec i s = .next t) :
    ∃ t', exec i (s.withHistory o c p x) = .next t' ∧ SameButHistory o c p x s t t' := by
  have haddr := withHistory_effAddr s o c p x
  cases i with
  | add | sub | and | or | xor | shl | shr | cmp => exact binaryOp_sameButHistory hs _ _ _ _ h
  | inc | dec => exact unaryOp_sameButHistory hs _ _ h
  | const value rd =>
    cases h
    exact ⟨_, rfl, sameButHistory_setReg hs rd _⟩
  | load rs rd offset =>
    cases hv : addressValid (s.effAddr rs offset) with
    | true =>
      cases (exec_load_of_valid hwf hv).symm.trans h
      refine ⟨_, exec_load_of_valid hwf (by rw [haddr, hv]), ?_⟩
      rw [haddr]
      exact sameButHistory_setReg hs rd _
    | false =>
      cases (exec_load_of_invalid hwf hv).symm.trans h
      refine ⟨_, exec_load_of_invalid hwf (by rw [haddr, hv]), ?_⟩
      rw [haddr]
      exact sameButHistory_takeFault ..
  | store rs rd offset =>
    cases hv : addressValid (s.effAddr rd offset) with
    | true =>
      cases (exec_store_of_valid hwf hv).symm.trans h
      refine ⟨_, exec_store_of_valid hwf (by rw [haddr, hv]), ?_⟩
      rw [haddr, withHistory_getReg]
      exact sameButHistory_storeCell hs _ _
    | false =>
      cases (exec_store_of_invalid hwf hv).symm.trans h
      refine ⟨_, exec_store_of_invalid hwf (by rw [haddr, hv]), ?_⟩
      rw [haddr]
      exact sameButHistory_takeFault ..
  | jmp rd offset =>
    cases (exec_jmp hwf).symm.trans h
    refine ⟨_, exec_jmp hwf, ?_⟩
    rw [withHistory_getReg]
    exact sameButHistory_setPc hs _
  | bz rt offset =>
    by_cases hz : s.operand rt = 0
    · cases (exec_bz_of_zero hwf hz).symm.trans h
      exact ⟨_, exec_bz_of_zero hwf (by rw [withHistory_operand, hz]), sameButHistory_setPc hs _⟩
    · cases (exec_bz_of_ne_zero hwf hz).symm.trans h
      exact ⟨_, exec_bz_of_ne_zero hwf (by rwa [withHistory_operand]), sameButHistory_setPc hs (s.pc + 1)⟩
  | halt =>
    cases h
    exact ⟨_, rfl, sameButHistory_of_silent rfl nofun⟩

end

end

/-! ### The step -/

/-- Fetch and decode read no more than the execute phase does. -/
theorem step_sameButHistory {s t : State} (h : step s = .next t) :
    ∃ t', step (s.withHistory o c p x) = .next t' ∧ SameButHistory o c p x s t t' := by
  obtain ⟨hs, heffect⟩ := step_effect h
  have hs' : (s.withHistory o c p x).status = .running := hs
  have hfetch : (s.withHistory o c p x).fetch = s.fetch := rfl
  cases heffect with
  | bounds hout => exact ⟨_, step_of_outside hs' hout, sameButHistory_takeFault ..⟩
  | opcode w hf hd =>
    exact ⟨_, step_of_invalidOpcode hs' (hfetch.trans hf) hd, sameButHistory_takeFault ..⟩
  | selector w sel hf hd =>
    exact ⟨_, step_of_invalidRegister hs' (hfetch.trans hf) hd, sameButHistory_takeFault ..⟩
  | executes w i t hf hd he =>
    rw [step_of_instr hs' (hfetch.trans hf) hd]
    exact exec_sameButHistory hs (wf_of_decode hd) he

end

/-- Settles O38: with the state's own record in place only the output is another one. -/
theorem outputIsNotReadable : Obligations.OutputIsNotReadable := by
  intro s t o hstep
  obtain ⟨t', hstep', e, hout, hsame⟩ := step_sameButHistory o s.faultCause s.faultPc s.faultInfo hstep
  refine ⟨e, hout, hstep'.trans (congrArg Host.Outcome.next ?_)⟩
  rcases hsame with ⟨-, rfl⟩ | ⟨ht, rfl⟩
  · rfl
  · obtain ⟨hcause, hpc, hinfo⟩ := (onlyHaltHaltsAndOnlyFaultsRecord s t hstep).2 ht
    rw [← hcause, ← hpc, ← hinfo]
    rfl

/-- Settles O39: with the state's own output in place only the record is another one. -/
theorem faultRecordIsNotReadable : Obligations.FaultRecordIsNotReadable := by
  intro s t c p x hstep
  obtain ⟨t', hstep', e, hout, hsame⟩ := step_sameButHistory s.out c p x hstep
  rw [← hout] at hsame
  rcases hsame with ⟨-, rfl⟩ | ⟨-, rfl⟩
  · exact ⟨_, _, _, hstep'⟩
  · exact ⟨_, _, _, hstep'⟩

end Sys2Proof.Machine
end

section
/-! SUPPORT. The connected blocks against the step (R121 to R134): the decoder's ports for a word by how it decodes, the
ports of an encoded instruction by the instruction, and the clock edge of each kind of cycle as the step's effect. -/

namespace Sys2Proof.Machine.Blocks

/-! ### instruction_decoder: the decode faults (R64, R126) -/

/-- R64 said of the ports: no row matches, or the matched row has an offending selector, or it has none. -/
theorem decode_by_ports (w : IWord) :
    (decInvalidOpcode w = true ∧ decode w = .invalidOpcode) ∨
    (∃ sel, decInvalidOpcode w = false ∧ offendingSel w = some sel ∧ decode w = .invalidRegister sel) ∨
    (∃ i, decInvalidOpcode w = false ∧ offendingSel w = none ∧ decode w = .instr i) := by
  rcases matchedRow_cases w with ⟨row, hrow, hm, hmatched⟩ | ⟨hno, hnone⟩
  · obtain ⟨hbad, hgood⟩ := (decodeFollowsTheOpcodeTable w).2 row hrow hm
    have hopcode : decInvalidOpcode w = false := by rw [decInvalidOpcode, hmatched]; rfl
    have hoffending : offendingSel w = row.firstBadSelector w := by rw [offendingSel, hmatched]; rfl
    cases hsel : row.firstBadSelector w with
    | some sel => exact .inr (.inl ⟨sel, hopcode, hoffending.trans hsel, hbad sel hsel⟩)
    | none =>
      obtain ⟨i, hi, -⟩ := hgood hsel
      exact .inr (.inr ⟨i, hopcode, hoffending.trans hsel, hi⟩)
  · exact .inl ⟨by rw [decInvalidOpcode, hnone]; rfl, decode_of_no_row hno⟩

section
variable {w : IWord}

theorem decInvalidOpcode_of_decode (h : decode w = .invalidOpcode) : decInvalidOpcode w = true := by
  rcases decode_by_ports w with ⟨hopcode, -⟩ | ⟨_, -, -, hd⟩ | ⟨_, -, -, hd⟩
  · exact hopcode
  · exact nomatch h.symm.trans hd
  · exact nomatch h.symm.trans hd

theorem offendingSel_of_decode {sel : Sel} (h : decode w = .invalidRegister sel) :
    decInvalidOpcode w = false ∧ offendingSel w = some sel := by
  rcases decode_by_ports w with ⟨-, hd⟩ | ⟨_, hopcode, hsel, hd⟩ | ⟨_, -, -, hd⟩
  · exact nomatch h.symm.trans hd
  · cases h.symm.trans hd
    exact ⟨hopcode, hsel⟩
  · exact nomatch h.symm.trans hd

theorem isInstruction_of_decode {i : Instr} (h : decode w = .instr i) : isInstruction w = true := by
  rcases decode_by_ports w with ⟨-, hd⟩ | ⟨_, -, -, hd⟩ | ⟨_, hopcode, hnone, -⟩
  · exact nomatch h.symm.trans hd
  · exact nomatch h.symm.trans hd
  · exact isInstruction_eq_true.mpr ⟨hopcode, by rw [decInvalidRegister, hnone]; rfl⟩

end

/-! ### instruction_decoder: the ports of an encoded instruction (R126) -/

section
variable {o : Opcode} {r1 r2 r3 : Sel} {v : Word}

@[simp] theorem sel1_assemble : sel1 (assemble o r1 r2 r3 v) = r1 := by rw [sel1_eq, fieldsOf_assemble]
@[simp] theorem sel2_assemble : sel2 (assemble o r1 r2 r3 v) = r2 := by rw [sel2_eq, fieldsOf_assemble]
@[simp] theorem sel3_assemble : sel3 (assemble o r1 r2 r3 v) = r3 := by rw [sel3_eq, fieldsOf_assemble]
@[simp] theorem imm_assemble : imm (assemble o r1 r2 r3 v) = v := by rw [imm_eq, fieldsOf_assemble]

end

section
variable {i : Instr} (hi : isInstruction (encode i) = true)
include hi

theorem isLoad_encode : isLoad (encode i) = opIsLoad (byteOfOpcode i.opcode) := by
  rw [isLoad, classPort_of_isInstruction hi, op_encode]

theorem isStore_encode : isStore (encode i) = opIsStore (byteOfOpcode i.opcode) := by
  rw [isStore, classPort_of_isInstruction hi, op_encode]

theorem isJmp_encode : isJmp (encode i) = (byteOfOpcode i.opcode == 0x0E) := by
  rw [isJmp, classPort_of_isInstruction hi, op_encode]

theorem isBz_encode : isBz (encode i) = (byteOfOpcode i.opcode == 0x0F) := by
  rw [isBz, classPort_of_isInstruction hi, op_encode]

theorem isHalt_encode : isHalt (encode i) = opIsHalt (byteOfOpcode i.opcode) := by
  rw [isHalt, classPort_of_isInstruction hi, op_encode]

/-- `wr_en` is high for the instructions with a destination. -/
theorem wrEn_encode : wrEn (encode i) = (destination i).isSome := by
  rw [wrEn, classPort_of_isInstruction hi, op_encode]
  cases i <;> rfl

/-- `wr_sel` selects the destination. -/
theorem wrSel_encode {r : Reg} (hr : destination i = some r) : wrSel (encode i) = selOfReg r := by
  rw [wrSel, selPort_of_isInstruction hi, op_encode]
  cases i with
  | add | sub | and | or | xor | shl | shr | cmp => cases hr; exact sel3_assemble
  | inc | dec | const => cases hr; exact sel1_assemble
  | load => cases hr; exact sel2_assemble
  | store | jmp | bz | halt => cases hr

/-- An instruction with a destination neither stores, branches nor halts. -/
theorem ports_of_destination {r : Reg} (hr : destination i = some r) :
    isStore (encode i) = false ∧ isJmp (encode i) = false ∧ isBz (encode i) = false ∧ isHalt (encode i) = false := by
  rw [isStore_encode hi, isJmp_encode hi, isBz_encode hi, isHalt_encode hi]
  cases i with
  | add | sub | and | or | xor | shl | shr | cmp | inc | dec | const | load => exact ⟨rfl, rfl, rfl, rfl⟩
  | store | jmp | bz | halt => cases hr

section
variable {o : Opcode} {r1 r2 r3 : Sel} {v : Word} (he : encode i = assemble o r1 r2 r3 v)
include he

/-- `rd_a_sel` is the first selector, but for CONST and HALT. -/
theorem rdASel_encode (ho : (opIsConst (byteOfOpcode o) || opIsHalt (byteOfOpcode o)) = false) :
    rdASel (encode i) = r1 := by
  rw [rdASel, selPort_of_isInstruction hi, he, op_eq, fieldsOf_assemble, if_neg (by simp [ho]), sel1_assemble]

/-- `rd_b_sel` is the second selector for the three-register instructions and STORE. -/
theorem rdBSel_encode (ho : (opIsThreeReg (byteOfOpcode o) || opIsStore (byteOfOpcode o)) = true) :
    rdBSel (encode i) = r2 := by
  rw [rdBSel, selPort_of_isInstruction hi, he, op_eq, fieldsOf_assemble, if_pos ho, sel2_assemble]

end

end

/-- The instructions of the ALU with register operands are no LOAD, and their first selector is read. -/
theorem ports_of_aluRegisters {o : Opcode} (h : (opIsThreeReg (byteOfOpcode o) || opIsOneReg (byteOfOpcode o)) = true) :
    opIsLoad (byteOfOpcode o) = false ∧ (opIsConst (byteOfOpcode o) || opIsHalt (byteOfOpcode o)) = false := by
  cases o with
  | add | sub | and | or | xor | shl | shr | cmp | inc | dec => exact ⟨rfl, rfl⟩
  | const | load | store | jmp | bz | halt => cases h

/-- `alu_op` is the low half of the opcode byte for every instruction whose result is the ALU's. -/
theorem aluOp_encode {i : Instr} {r : Reg} (hr : destination i = some r)
    (hload : opIsLoad (byteOfOpcode i.opcode) = false) :
    aluOp (encode i) = (byteOfOpcode i.opcode).setWidth 4 := by
  rw [aluOp, op_encode]
  cases i with
  | add | sub | and | or | xor | shl | shr | cmp | inc | dec | const => rfl
  | load => cases hload
  | store | jmp | bz | halt => cases hr

/-! ### memory_interface (R130, R131) -/

/-- Neither summand is changed by its extension, and their sum fits 34 bits. -/
theorem ea_toInt (base imm : Word) : (ea base imm).toInt = (base.toNat : Int) + imm.toInt := by
  have hbase := base.isLt
  have hlo := BitVec.le_toInt imm
  have hhi := BitVec.toInt_lt (x := imm)
  have hzext : (base.setWidth 34).toInt = base.toNat := by
    rw [BitVec.toInt_eq_toNat_of_lt] <;> rw [BitVec.toNat_setWidth_of_le (by decide)]
    omega
  rw [ea, BitVec.toInt_add, hzext, BitVec.toInt_signExtend_of_le (by decide), Int.bmod_eq_of_le] <;> omega

/-- Settles O49. -/
theorem addressAdderIsExact : Obligations.AddressAdderIsExact :=
  ea_toInt

/-- The adder's sum for an operand and the field of an encodable offset is the address of R34. -/
theorem ea_operand {s : State} {base : Reg} {offset : Int} (hoff : offsetEncodable offset = true) :
    (ea (s.preIncrement.getReg base) (BitVec.ofInt 32 offset)).toInt = s.effAddr base offset := by
  rw [ea_toInt, preIncrement_getReg_toNat, toInt_ofInt_of_encodable hoff, State.effAddr]

/-- `mem_fault` of an access is the check of R35 and R36. -/
theorem memFault_of_access {load store : Bool} {sum : BitVec 34} (h : (load || store) = true) :
    memFault load store sum = !addressValid sum.toInt := by
  rw [memFault, h, Bool.true_and, Bool.eq_iff_iff]
  simp only [Bool.or_eq_true, decide_eq_true_eq, Bool.not_eq_true', addressValid_eq_false_iff]

/-- The low half of a valid address is the address. -/
theorem cellAddr_toNat {sum : BitVec 34} (h : addressValid sum.toInt = true) :
    (cellAddr sum).toNat = sum.toInt.toNat := by
  obtain ⟨hlo, hhi⟩ := addressValid_iff.mp h
  have hcond := BitVec.toInt_eq_toNat_cond sum
  rw [cellAddr, BitVec.toNat_setWidth]
  split at hcond <;> omega

end Sys2Proof.Machine.Blocks
end

section
/-! SUPPORT. One edge of the connected blocks (R123, R132): a cycle that executes an instruction commits it or latches
MemoryFault, each kind of instruction through its own wires; the other cycles latch a fault or keep everything. -/

namespace Sys2Proof.Machine.Blocks

/-- A cycle that executes instruction `i`: neither fetch nor decode faults. -/
structure ExecutionCycle (s : State) (i : Instr) : Prop where
  running : s.status = .running
  rdata : imemRdata s s.pc = encode i
  inside : fetchFault s.pc (progLenPort s) = false
  instruction : isInstruction (encode i) = true
  wf : i.wf = true

/-- A word is fetched only inside the Program. -/
theorem fetchFault_of_fetch {s : State} {w : IWord} (hlen : s.program.len ≤ 2 ^ 32) (hf : s.fetch = some w) :
    fetchFault s.pc (progLenPort s) = false := by
  rw [fetchFault_eq hlen]
  exact decide_eq_false fun hout => nomatch (fetch_eq_none_of_outside hout).symm.trans hf

theorem executionCycle_of_fetch {s : State} {w : IWord} {i : Instr} (hs : s.status = .running)
    (hlen : s.program.len ≤ 2 ^ 32) (hf : s.fetch = some w) (hd : decode w = .instr i) : ExecutionCycle s i := by
  cases encode_of_decode hd
  exact ⟨hs, imemRdata_of_fetch hf, fetchFault_of_fetch hlen hf, isInstruction_of_decode hd, wf_of_decode hd⟩

namespace ExecutionCycle

variable {s t : State} {i : Instr} (c : ExecutionCycle s i)
include c

/-! ### The wires (R121 to R133) -/

theorem rdA_eq : (wires false s).rdA = regRead s (rdASel (encode i)) := by
  rw [← c.rdata]
  rfl

theorem rdB_eq : (wires false s).rdB = regRead s (rdBSel (encode i)) := by
  rw [← c.rdata]
  rfl

theorem ea_eq : (wires false s).ea =
    ea (basePort (encode i) (wires false s).rdA (wires false s).rdB) (imm (encode i)) := by
  rw [← c.rdata]
  rfl

theorem memFault_eq : (wires false s).memFault =
    memFault (isLoad (encode i)) (isStore (encode i)) (wires false s).ea := by
  rw [← c.rdata]
  rfl

theorem wrData_eq : (wires false s).wrData =
    wrDataPort (encode i) (wires false s).rdA (wires false s).rdB (loadData s (wires false s).ea)
      (alu (aluOp (encode i)) (wires false s).rdA (wires false s).rdB (imm (encode i))) := by
  rw [← c.rdata]
  rfl

theorem storeData_eq : (wires false s).storeData =
    storeDataPort (encode i) (wires false s).rdA (wires false s).rdB := by
  rw [← c.rdata]
  rfl

/-- A cycle without a memory fault commits. -/
theorem commits (hm : (wires false s).memFault = false) :
    (wires false s).instr = encode i ∧ (wires false s).commit = true ∧ (wires false s).faultRequest = false ∧
      (wires false s).storeCommit = isStore (encode i) := by
  obtain ⟨hopcode, hregister⟩ := isInstruction_eq_true.mp c.instruction
  exact wires_commit c.running c.rdata c.inside hopcode hregister hm

/-- A cycle with a memory fault latches it. -/
theorem edge_of_memFault (hm : (wires false s).memFault = true) :
    edge false s = s.takeFault .memoryFault ((wires false s).ea.signExtend 64) := by
  obtain ⟨hopcode, hregister⟩ := isInstruction_eq_true.mp c.instruction
  exact edge_takes_fault c.running c.rdata c.inside hopcode hregister hm rfl

/-- Instructions that do not access memory raise no memory fault. -/
theorem memFault_eq_false (hload : isLoad (encode i) = false) (hstore : isStore (encode i) = false) :
    (wires false s).memFault = false := by
  rw [c.memFault_eq, hload, hstore]
  rfl

/-! ### Instructions with a destination -/

/-- The edge writes `wr_data` to the destination. -/
theorem edge_of_destination (hm : (wires false s).memFault = false) {r : Reg} (hr : destination i = some r) :
    edge false s = s.preIncrement.setReg r (wires false s).wrData := by
  obtain ⟨hstore, hjmp, hbz, hhalt⟩ := ports_of_destination c.instruction hr
  obtain ⟨hinstr, hcommit, hrequest, hsc⟩ := c.commits hm
  have hen : wrEn (encode i) = true := by rw [wrEn_encode c.instruction, hr]; rfl
  exact clocked_writes_register hinstr hcommit hrequest (hsc.trans hstore) hen (wrSel_encode c.instruction hr)
    hhalt hjmp hbz

section
variable {o : Opcode} {r : Reg} {sel sel' : Sel} {v : Word}

/-- `rd_a_data` is the first operand's value. -/
theorem rdA_of_encode (he : encode i = assemble o (selOfReg r) sel sel' v)
    (ho : (opIsConst (byteOfOpcode o) || opIsHalt (byteOfOpcode o)) = false) :
    (wires false s).rdA = s.preIncrement.getReg r := by
  rw [c.rdA_eq, rdASel_encode c.instruction he ho, regRead_selOfReg]

/-- `rd_b_data` is the second operand's value. -/
theorem rdB_of_encode (he : encode i = assemble o sel (selOfReg r) sel' v)
    (ho : (opIsThreeReg (byteOfOpcode o) || opIsStore (byteOfOpcode o)) = true) :
    (wires false s).rdB = s.preIncrement.getReg r := by
  rw [c.rdB_eq, rdBSel_encode c.instruction he ho, regRead_selOfReg]

end

/-- The destination of an instruction other than LOAD takes the ALU's result. -/
theorem edge_of_alu {r : Reg} (hr : destination i = some r) (hload : opIsLoad (byteOfOpcode i.opcode) = false)
    {y : Word}
    (hy : alu ((byteOfOpcode i.opcode).setWidth 4) (wires false s).rdA (wires false s).rdB (imm (encode i)) = y) :
    edge false s = s.preIncrement.setReg r y := by
  have hload' : isLoad (encode i) = false := (isLoad_encode c.instruction).trans hload
  have hen : wrEn (encode i) = true := by rw [wrEn_encode c.instruction, hr]; rfl
  rw [c.edge_of_destination (c.memFault_eq_false hload' (ports_of_destination c.instruction hr).1) hr, c.wrData_eq,
    wrDataPort, hload', if_neg Bool.false_ne_true, if_pos hen, aluOp_encode hr hload, hy]

/-- The three-register instructions, each with its function of the ALU. -/
theorem edge_of_binaryOp {f : Word → Word → Word} {ra rb rd : Reg}
    (he : encode i = assemble i.opcode (selOfReg ra) (selOfReg rb) (selOfReg rd) 0) (hr : destination i = some rd)
    (ho : opIsThreeReg (byteOfOpcode i.opcode) = true)
    (hf : ∀ a b v, alu ((byteOfOpcode i.opcode).setWidth 4) a b v = f a b) (h : binaryOp f ra rb rd s = .next t) :
    edge false s = t := by
  cases h
  obtain ⟨hload, hreads⟩ := ports_of_aluRegisters (by rw [ho, Bool.true_or])
  refine c.edge_of_alu hr hload ?_
  rw [hf, c.rdA_of_encode he hreads, c.rdB_of_encode he (by rw [ho, Bool.true_or])]

/-- INC and DEC, each with its function of the ALU. -/
theorem edge_of_unaryOp {f : Word → Word} {ra : Reg} (he : encode i = assemble i.opcode (selOfReg ra) 0 0 0)
    (hr : destination i = some ra) (ho : opIsOneReg (byteOfOpcode i.opcode) = true)
    (hf : ∀ a b v, alu ((byteOfOpcode i.opcode).setWidth 4) a b v = f a) (h : unaryOp f ra s = .next t) :
    edge false s = t := by
  cases h
  obtain ⟨hload, hreads⟩ := ports_of_aluRegisters (by rw [ho, Bool.or_true])
  refine c.edge_of_alu hr hload ?_
  rw [hf, c.rdA_of_encode he hreads]

/-! ### Memory accesses (R130, R131) -/

/-- Outside data memory the edge latches MemoryFault with the address of R34. -/
theorem edge_of_invalid_access {ea : Int} (haccess : (isLoad (encode i) || isStore (encode i)) = true)
    (hea : (wires false s).ea.toInt = ea) (hv : addressValid ea = false) : edge false s = s.memoryFault ea := by
  rw [c.edge_of_memFault (by rw [c.memFault_eq, memFault_of_access haccess, hea, hv]; rfl), BitVec.signExtend, hea]
  rfl

/-- Inside data memory there is no fault. -/
theorem memFault_of_valid_access (haccess : (isLoad (encode i) || isStore (encode i)) = true)
    (hv : addressValid (wires false s).ea.toInt = true) : (wires false s).memFault = false := by
  rw [c.memFault_eq, memFault_of_access haccess, hv]
  rfl

end ExecutionCycle

section
variable {s t : State}

theorem edge_load {rs rd : Reg} {offset : Int} (c : ExecutionCycle s (.load rs rd offset))
    (h : exec (.load rs rd offset) s = .next t) : edge false s = t := by
  have hload : isLoad (encode (.load rs rd offset)) = true := isLoad_encode c.instruction
  have haccess : (isLoad (encode (.load rs rd offset)) || isStore (encode (.load rs rd offset))) = true := by
    rw [hload, Bool.true_or]
  have hea : (wires false s).ea.toInt = s.effAddr rs offset := by
    rw [c.ea_eq, basePort, if_pos hload, c.rdA_of_encode rfl rfl, encode, imm_assemble, ea_operand c.wf]
  cases hv : addressValid (s.effAddr rs offset) with
  | true =>
    cases (exec_load_of_valid c.wf hv).symm.trans h
    have hv' : addressValid (wires false s).ea.toInt = true := by rw [hea, hv]
    rw [c.edge_of_destination (c.memFault_of_valid_access haccess hv') rfl, c.wrData_eq, wrDataPort, if_pos hload,
      loadData, cellAddr_toNat hv', hea]
    rfl
  | false =>
    cases (exec_load_of_invalid c.wf hv).symm.trans h
    exact c.edge_of_invalid_access haccess hea hv

/-- A committing edge of an instruction without a destination writes no register: PC, the store and the status are what
there is to it. -/
theorem edge_of_no_destination {i : Instr} (c : ExecutionCycle s i) (hr : destination i = none)
    (hm : (wires false s).memFault = false) :
    edge false s =
      ({ s with
          pc := if isJmp (encode i) then (wires false s).rdA + imm (encode i)
            else if isBz (encode i) && (wires false s).rdA == 0 then s.pc + 1 + imm (encode i)
            else s.pc + 1
          mem := if isStore (encode i) then
              cellsWrite s.mem (cellAddr (wires false s).ea).toNat (wires false s).storeData else s.mem
          status := if isHalt (encode i) then .halted else s.status
          out := if isStore (encode i) && cellAddr (wires false s).ea == 0xFFFF then
              s.out ++ [(wires false s).storeData] else s.out } : State) := by
  obtain ⟨hinstr, hcommit, hrequest, hsc⟩ := c.commits hm
  have hen : wrEn (encode i) = false := by rw [wrEn_encode c.instruction, hr]; rfl
  simp [edge, clocked, hinstr, hcommit, hrequest, hsc, hen, regNext, pcNext, ioOutValid]

/-- A store after the pre-increment, field by field, as memory_interface and io_port_mapper make it. -/
theorem preIncrement_storeCell_eq (s : State) (a : Nat) (v : Word) :
    s.preIncrement.storeCell a v =
      ({ s with
          pc := s.pc + 1
          mem := cellsWrite s.mem a v
          out := if a = Config.ioOut then s.out ++ [v] else s.out } : State) := by
  unfold State.storeCell
  split <;> rfl

/-- The port's address is the cell number 65535 (R133). -/
theorem cellAddr_eq_port_iff {sum : BitVec 34} : cellAddr sum = 0xFFFF#16 ↔ (cellAddr sum).toNat = Config.ioOut :=
  BitVec.toNat_inj.symm

theorem edge_store {rs rd : Reg} {offset : Int} (c : ExecutionCycle s (.store rs rd offset))
    (h : exec (.store rs rd offset) s = .next t) : edge false s = t := by
  have hload : isLoad (encode (.store rs rd offset)) = false := isLoad_encode c.instruction
  have hstore : isStore (encode (.store rs rd offset)) = true := isStore_encode c.instruction
  have hjmp : isJmp (encode (.store rs rd offset)) = false := isJmp_encode c.instruction
  have hbz : isBz (encode (.store rs rd offset)) = false := isBz_encode c.instruction
  have hhalt : isHalt (encode (.store rs rd offset)) = false := isHalt_encode c.instruction
  have haccess : (isLoad (encode (.store rs rd offset)) || isStore (encode (.store rs rd offset))) = true := by
    rw [hstore, Bool.or_true]
  have hea : (wires false s).ea.toInt = s.effAddr rd offset := by
    rw [c.ea_eq, basePort, hload, if_neg Bool.false_ne_true, if_pos hstore, c.rdB_of_encode rfl rfl, encode,
      imm_assemble, ea_operand c.wf]
  have hdata : (wires false s).storeData = s.preIncrement.getReg rs := by
    rw [c.storeData_eq, storeDataPort, if_pos hstore, c.rdA_of_encode rfl rfl]
  cases hv : addressValid (s.effAddr rd offset) with
  | true =>
    cases (exec_store_of_valid c.wf hv).symm.trans h
    have hv' : addressValid (wires false s).ea.toInt = true := by rw [hea, hv]
    rw [edge_of_no_destination c rfl (c.memFault_of_valid_access haccess hv'), preIncrement_storeCell_eq]
    simp [hstore, hjmp, hbz, hhalt, cellAddr_eq_port_iff, cellAddr_toNat hv', hea, hdata]
  | false =>
    cases (exec_store_of_invalid c.wf hv).symm.trans h
    exact c.edge_of_invalid_access haccess hea hv

/-! ### JMP, BZ, HALT (R129) -/

/-- An edge of JMP, BZ or HALT writes PC and the status. -/
theorem edge_of_control {i : Instr} (c : ExecutionCycle s i) (hr : destination i = none)
    (hstore : opIsStore (byteOfOpcode i.opcode) = false) (hload : opIsLoad (byteOfOpcode i.opcode) = false) :
    edge false s =
      ({ s with
          pc := if isJmp (encode i) then (wires false s).rdA + imm (encode i)
            else if isBz (encode i) && (wires false s).rdA == 0 then s.pc + 1 + imm (encode i)
            else s.pc + 1
          status := if isHalt (encode i) then .halted else s.status } : State) := by
  rw [← isStore_encode c.instruction] at hstore
  rw [← isLoad_encode c.instruction] at hload
  rw [edge_of_no_destination c hr (c.memFault_eq_false hload hstore)]
  simp [hstore]

/-- The adder of pc_next_logic makes the branch target of R22. -/
theorem add_ofInt_eq_branchTarget (base : Word) (offset : Int) :
    base + BitVec.ofInt 32 offset = branchTarget base offset := by
  rw [branchTarget, BitVec.ofInt_add, BitVec.ofInt_natCast, BitVec.ofNat_toNat, BitVec.setWidth_eq]

theorem edge_jmp {rd : Reg} {offset : Int} (c : ExecutionCycle s (.jmp rd offset))
    (h : exec (.jmp rd offset) s = .next t) : edge false s = t := by
  cases (exec_jmp c.wf).symm.trans h
  have hjmp : isJmp (encode (.jmp rd offset)) = true := isJmp_encode c.instruction
  have hhalt : isHalt (encode (.jmp rd offset)) = false := isHalt_encode c.instruction
  have himm : imm (encode (.jmp rd offset)) = BitVec.ofInt 32 offset := imm_assemble
  rw [edge_of_control c rfl rfl rfl, hjmp, hhalt, himm, c.rdA_of_encode rfl rfl, ← add_ofInt_eq_branchTarget]
  rfl

theorem edge_bz {rt : Reg} {offset : Int} (c : ExecutionCycle s (.bz rt offset))
    (h : exec (.bz rt offset) s = .next t) : edge false s = t := by
  have hjmp : isJmp (encode (.bz rt offset)) = false := isJmp_encode c.instruction
  have hbz : isBz (encode (.bz rt offset)) = true := isBz_encode c.instruction
  have hhalt : isHalt (encode (.bz rt offset)) = false := isHalt_encode c.instruction
  have himm : imm (encode (.bz rt offset)) = BitVec.ofInt 32 offset := imm_assemble
  have hzero : ((wires false s).rdA == 0) = decide (s.operand rt = 0) := by
    rw [c.rdA_of_encode rfl rfl, ← isZeroWord_preIncrement_getReg]
    rfl
  rw [edge_of_control c rfl rfl rfl, hjmp, hbz, hhalt, himm, hzero]
  by_cases hz : s.operand rt = 0
  · cases (exec_bz_of_zero c.wf hz).symm.trans h
    rw [← add_ofInt_eq_branchTarget, decide_eq_true hz]
    rfl
  · cases (exec_bz_of_ne_zero c.wf hz).symm.trans h
    rw [decide_eq_false hz]
    rfl

theorem edge_halt (c : ExecutionCycle s .halt) : edge false s = s.preIncrement.halt := by
  have hjmp : isJmp (encode .halt) = false := isJmp_encode c.instruction
  have hbz : isBz (encode .halt) = false := isBz_encode c.instruction
  have hhalt : isHalt (encode .halt) = true := isHalt_encode c.instruction
  rw [edge_of_control c rfl rfl rfl, hjmp, hbz, hhalt]
  rfl

/-! ### The edge and the step -/

/-- A cycle that executes an instruction leads to the instruction's next state. -/
theorem edge_of_exec {i : Instr} (c : ExecutionCycle s i) (h : exec i s = .next t) : edge false s = t := by
  cases i with
  | add | sub | and | or | xor | shl | shr | cmp => exact c.edge_of_binaryOp rfl rfl rfl (fun _ _ _ => rfl) h
  | inc | dec => exact c.edge_of_unaryOp rfl rfl rfl (fun _ _ _ => rfl) h
  | const value rd =>
    cases h
    exact c.edge_of_alu rfl rfl imm_assemble
  | load => exact edge_load c h
  | store => exact edge_store c h
  | jmp => exact edge_jmp c h
  | bz => exact edge_bz c h
  | halt =>
    cases h
    exact edge_halt c

/-- Where the step has a next state, the edge leads to it. -/
theorem edge_of_step (hlen : s.program.len ≤ 2 ^ 32) (h : step s = .next t) : edge false s = t := by
  obtain ⟨hs, heffect⟩ := step_effect h
  cases heffect with
  | bounds hout _ =>
    have hff : fetchFault s.pc (progLenPort s) = true := by rw [fetchFault_eq hlen, decide_eq_true hout]
    exact edge_takes_fault hs rfl hff rfl rfl rfl rfl
  | opcode w hf hd =>
    exact edge_takes_fault hs (imemRdata_of_fetch hf) (fetchFault_of_fetch hlen hf) (decInvalidOpcode_of_decode hd) rfl
      rfl rfl
  | selector w sel hf hd =>
    obtain ⟨hopcode, hsel⟩ := offendingSel_of_decode hd
    have hregister : decInvalidRegister w = true := by rw [decInvalidRegister, hsel]; rfl
    have hedge := edge_takes_fault hs (imemRdata_of_fetch hf) (fetchFault_of_fetch hlen hf) hopcode
      hregister rfl rfl
    rwa [badSel, hsel] at hedge
  | executes w i t hf hd he => exact edge_of_exec (executionCycle_of_fetch hs hlen hf hd) he

/-- Settles O50: a step with a next state is `edge_of_step`, and without one the machine has stopped. -/
theorem connectedBlocksRefineTheStep : Obligations.ConnectedBlocksRefineTheStep := by
  intro s hlen
  refine ⟨fun t => edge_of_step hlen, fun hnone => edge_false_of_stopped fun hs => ?_⟩
  obtain ⟨t, ht⟩ := exists_step_next_of_running hs
  exact hnone t ht

/-- Settles O51: the next state is the one after the edge, whose output is the port's. -/
theorem portPulsesAreTheOutput : Obligations.PortPulsesAreTheOutput := by
  intro s t hlen hstep
  rw [← edge_of_step hlen hstep]
  show (if (topPorts false s).ioOutValid then s.out ++ [(topPorts false s).ioOutData] else s.out) = _
  split
  · rfl
  · exact (List.append_nil _).symm

end

end Sys2Proof.Machine.Blocks
end
